-- ==== Sys2Proof/Word.lean ====
section
/-! DEFINITION. The 16-bit word and its two readings (00_scope.md R8, R9). -/

namespace Sys2Proof

/-- R9: a 16-bit value; bit 0 is the least significant (R8). -/
abbrev Word := BitVec 16

/-- R9: the unsigned reading, 0 to 65,535. -/
abbrev uns (w : Word) : Nat := w.toNat

/-- R9: the two's-complement reading, -32,768 to 32,767. -/
abbrev sgn (w : Word) : Int := w.toInt

/-- R9: `n mod 65,536` as a word, for any integer `n`. -/
abbrev trunc16 (n : Int) : Word := BitVec.ofInt 16 n

end Sys2Proof
end

