-- ==== Sys2Proof/Config.lean ====
section
/-! DEFINITION. What is fixed for the machine, the launch parameters with their defaults (00_scope.md R7), and the
one free value. -/

namespace Sys2Proof

/-- R7 `MEM_WORDS`: addresses run from 0 to 65,535. -/
def memWords : Nat := 65536

/-- R233: the code of the space an IN pads its buffer with. -/
def padCode : Word := 0x0020

/-- R78: what an effective address above 0xFFFF does. -/
inductive EaPolicy where
  | fault   -- MemoryAccessError, the spec's default
  | wrap    -- reduced modulo 65,536, the named alternative
  deriving DecidableEq, Repr

/-- R124: what ADDL, SUBL and CPL leave in OF. -/
inductive UnsignedOfPolicy where
  | never   -- always 0: normative
  | carry   -- the carry or borrow, the named alternative
  deriving DecidableEq, Repr

/-- The parameters of R7 that the engine consults during a run, with the defaults of R7.
`stepLimit` and `trace` have no default there: log 3. -/
structure Params where
  spInit     : Word := 0xFFFF                  -- SP_INIT, and the ceiling STACK_CEILING (R190)
  stepLimit  : Option Nat := none              -- STEP_LIMIT
  trace      : Bool := false                   -- TRACE, no effect on any rule (R269)
  unsignedOf : UnsignedOfPolicy := .never      -- UNSIGNED_OF_POLICY
  eaPolicy   : EaPolicy := .fault              -- EA_POLICY
  inMaxLen   : Nat := 256                      -- IN_MAX_LEN
  deriving DecidableEq, Repr

/-- The one value that the spec does not state, and that nothing here constrains (log 20): the length word of an IN that
stored 65,536 codes, a count that is no 16-bit value (R233 with IN_MAX_LEN = 65,536 and the buffer at 0). It may differ
from one IN to the next: it is applied to the model's own counter `draws`, which every IN advances, and to the line. -/
opaque freeLengthWord : Nat → List Word → Word

end Sys2Proof
end

