-- ==== Sys2Proof/Syntax.lean ====
section
/-! DEFINITION. The 38 instructions, one constructor for each row of the opcode map (30_encoding.md R80). -/

namespace Sys2Proof

/-- R20, R74: a general register GR0 to GR7. -/
abbrev Reg := Fin 8

/-- R22: the stack pointer is GR7. -/
abbrev spReg : Reg := 7

/-- R80. `r`, `r1`, `r2` are register operands, `adr` is word 2, and `x` is the index register, `none` where
the field is 0, "no index" (R77). -/
inductive Instr where
  | nop                                                  -- 0x00 NOP
  | ldMem   (r : Reg) (adr : Word) (x : Option Reg)      -- 0x10 LD r,adr,x
  | st      (r : Reg) (adr : Word) (x : Option Reg)      -- 0x11 ST r,adr,x
  | lad     (r : Reg) (adr : Word) (x : Option Reg)      -- 0x12 LAD r,adr,x
  | ldReg   (r1 r2 : Reg)                                -- 0x14 LD r1,r2
  | addaMem (r : Reg) (adr : Word) (x : Option Reg)      -- 0x20 ADDA r,adr,x
  | subaMem (r : Reg) (adr : Word) (x : Option Reg)      -- 0x21 SUBA r,adr,x
  | addlMem (r : Reg) (adr : Word) (x : Option Reg)      -- 0x22 ADDL r,adr,x
  | sublMem (r : Reg) (adr : Word) (x : Option Reg)      -- 0x23 SUBL r,adr,x
  | addaReg (r1 r2 : Reg)                                -- 0x24 ADDA r1,r2
  | subaReg (r1 r2 : Reg)                                -- 0x25 SUBA r1,r2
  | addlReg (r1 r2 : Reg)                                -- 0x26 ADDL r1,r2
  | sublReg (r1 r2 : Reg)                                -- 0x27 SUBL r1,r2
  | andMem  (r : Reg) (adr : Word) (x : Option Reg)      -- 0x30 AND r,adr,x
  | orMem   (r : Reg) (adr : Word) (x : Option Reg)      -- 0x31 OR r,adr,x
  | xorMem  (r : Reg) (adr : Word) (x : Option Reg)      -- 0x32 XOR r,adr,x
  | andReg  (r1 r2 : Reg)                                -- 0x34 AND r1,r2
  | orReg   (r1 r2 : Reg)                                -- 0x35 OR r1,r2
  | xorReg  (r1 r2 : Reg)                                -- 0x36 XOR r1,r2
  | cpaMem  (r : Reg) (adr : Word) (x : Option Reg)      -- 0x40 CPA r,adr,x
  | cplMem  (r : Reg) (adr : Word) (x : Option Reg)      -- 0x41 CPL r,adr,x
  | cpaReg  (r1 r2 : Reg)                                -- 0x44 CPA r1,r2
  | cplReg  (r1 r2 : Reg)                                -- 0x45 CPL r1,r2
  | sla     (r : Reg) (adr : Word) (x : Option Reg)      -- 0x50 SLA r,adr,x
  | sra     (r : Reg) (adr : Word) (x : Option Reg)      -- 0x51 SRA r,adr,x
  | sll     (r : Reg) (adr : Word) (x : Option Reg)      -- 0x52 SLL r,adr,x
  | srl     (r : Reg) (adr : Word) (x : Option Reg)      -- 0x53 SRL r,adr,x
  | jmi     (adr : Word) (x : Option Reg)                -- 0x61 JMI adr,x
  | jnz     (adr : Word) (x : Option Reg)                -- 0x62 JNZ adr,x
  | jze     (adr : Word) (x : Option Reg)                -- 0x63 JZE adr,x
  | jump    (adr : Word) (x : Option Reg)                -- 0x64 JUMP adr,x
  | jpl     (adr : Word) (x : Option Reg)                -- 0x65 JPL adr,x
  | jov     (adr : Word) (x : Option Reg)                -- 0x66 JOV adr,x
  | push    (adr : Word) (x : Option Reg)                -- 0x70 PUSH adr,x
  | pop     (r : Reg)                                    -- 0x71 POP r
  | call    (adr : Word) (x : Option Reg)                -- 0x80 CALL adr,x
  | ret                                                  -- 0x81 RET
  | svc     (adr : Word) (x : Option Reg)                -- 0xF0 SVC adr,x
  deriving DecidableEq, Repr

/-- R72: the operand formats. -/
inductive Format where
  | N | RR | R | RA | A
  deriving DecidableEq, Repr

/-- R73: how many words an instruction of a format takes. -/
def Format.words : Format → Nat
  | .N => 1
  | .RR => 1
  | .R => 1
  | .RA => 2
  | .A => 2

/-- R72, R80: the format of each instruction. -/
def Instr.format : Instr → Format
  | .nop => .N
  | .ldMem _ _ _ => .RA
  | .st _ _ _ => .RA
  | .lad _ _ _ => .RA
  | .ldReg _ _ => .RR
  | .addaMem _ _ _ => .RA
  | .subaMem _ _ _ => .RA
  | .addlMem _ _ _ => .RA
  | .sublMem _ _ _ => .RA
  | .addaReg _ _ => .RR
  | .subaReg _ _ => .RR
  | .addlReg _ _ => .RR
  | .sublReg _ _ => .RR
  | .andMem _ _ _ => .RA
  | .orMem _ _ _ => .RA
  | .xorMem _ _ _ => .RA
  | .andReg _ _ => .RR
  | .orReg _ _ => .RR
  | .xorReg _ _ => .RR
  | .cpaMem _ _ _ => .RA
  | .cplMem _ _ _ => .RA
  | .cpaReg _ _ => .RR
  | .cplReg _ _ => .RR
  | .sla _ _ _ => .RA
  | .sra _ _ _ => .RA
  | .sll _ _ _ => .RA
  | .srl _ _ _ => .RA
  | .jmi _ _ => .A
  | .jnz _ _ => .A
  | .jze _ _ => .A
  | .jump _ _ => .A
  | .jpl _ _ => .A
  | .jov _ _ => .A
  | .push _ _ => .A
  | .pop _ => .R
  | .call _ _ => .A
  | .ret => .N
  | .svc _ _ => .A

/-- R73: the instruction's length `I.len`, 1 or 2 words. -/
def Instr.words (i : Instr) : Nat := i.format.words

end Sys2Proof
end

