-- ==== Sys2Proof/Machine/State.lean ====
section
/-! DEFINITION. Everything the spec gives the machine, as plain data (10_state.md R20 to R36), the inputs of the
host and of the I/O device that a step may read (R34, R272 to R275), the reasons a step can stop, and reset. -/

namespace Sys2Proof.Machine

/-- R260: which way a StackFaultError crossed. -/
inductive StackFaultKind where
  | overflow
  | underflow
  deriving DecidableEq, Repr

/-- R260: the six run-time errors, each with the information it records. -/
inductive RunError where
  | memoryAccess (a : Nat)
  | stackFault (sp : Word) (kind : StackFaultKind)
  | illegalInstruction (a : Nat) (w : Word)
  | stepLimitExceeded (l : Nat)
  | aborted
  | endOfInput
  deriving DecidableEq, Repr

/-- R32, R100: the run state. -/
inductive RunState where
  | ready
  | running
  | haltedNormal
  | haltedError (e : RunError)
  deriving DecidableEq, Repr

/-- R28: the flag register. -/
structure Flags where
  OF : Bool
  SF : Bool
  ZF : Bool
  deriving DecidableEq, Repr

/-- R236, R237: a line exchanged with the device, one word for each character. -/
abbrev Line := List Word

/-- R50: memory, as the words that differ from what an unlisted address reads as, each at its address. The cell is
the machine's word, since there is no byte addressing (log 8). The canonical form is `Memory.wf`. -/
abbrev Memory := List (Nat × Word)

/-- R290, R84: an entry of the object module, a word or the place of a `DS` word. -/
inductive ImageEntry where
  | word (w : Word)
  | reserved
  deriving DecidableEq, Repr

/-- R290, R7: the arguments of a load. `memReset` lists the words of MEM_RESET that are not 0 (log 17). -/
structure LoadArgs where
  image    : List ImageEntry        -- IMAGE
  loadBase : Word := 0              -- LOAD_BASE, default 0 (R7)
  entry    : Word                   -- ENTRY
  params   : Params := {}           -- SP_INIT and the run options
  grReset  : Vector Word 7          -- GR_RESET[0..6]
  frReset  : Flags                  -- FR_RESET
  memReset : List (Nat × Word)      -- MEM_RESET
  deriving DecidableEq, Repr

/-- R272: what the host may ask of the engine. -/
inductive HostCall where
  | start
  | load (args : LoadArgs)
  deriving DecidableEq, Repr

/-- R34, R272: the host's inputs: its calls that the engine has not taken yet, oldest first (log 9), and the abort
signal as it will stand at the coming fetch boundaries, the next first, not asserted past the end (log 10). -/
structure HostPort where
  calls : List HostCall
  abort : List Bool
  deriving DecidableEq, Repr

/-- R274, 93 item 15: what the device does once its lines are used up. -/
inductive AtEnd where
  | endOfInput
  | noAnswer
  deriving DecidableEq, Repr

/-- R275: the I/O device: the lines it will answer `read_line` with, and the lines handed to `write_line`, oldest
first (log 11). -/
structure Device where
  input  : List Line
  atEnd  : AtEnd
  output : List Line
  deriving DecidableEq, Repr

/-- R35, with the launch parameters (log 2), the host's inputs, the device, and the model's own counter of the draws of
its free value (log 20). -/
structure State where
  run    : RunState                 -- R32
  gr     : Vector Word 8            -- R20: GR0 to GR7; GR7 is the stack pointer (R22)
  pr     : Nat                      -- R25: 0 to 65,536
  fr     : Flags                    -- R28
  mem    : Memory                   -- R50
  steps  : Nat                      -- R33
  params : Params                   -- R7
  host   : HostPort
  dev    : Device
  draws  : Nat                      -- the model's own (log 20): no rule of the spec reads or names it
  deriving DecidableEq, Repr

/-- The stuck states: the spec gives the engine no step there. None of them is the outcome of an instruction that
the spec gives an effect. -/
inductive Fault where
  /-- `step` in Ready with no host call pending (R100: only `Running` has steps). Safe: the engine has no step there. -/
  | notStarted
  /-- `step` in a Halted state with no host call pending (R100: the Halted states have no step). Safe. -/
  | halted
  /-- SVC 1 when the device never answers (93_implementation_defined.md item 15: `stuck`). Safe: no step completes there. -/
  | waitingForDevice
  deriving DecidableEq, Repr

/-- What the model gives no meaning. -/
inductive Refusal where
  /-- An arm of `exec` without a meaning yet. No arm of this model raises it. Safe. -/
  | notModelled (mnemonic : String)
  /-- A `load` whose image does not fit (R292: the load is refused, there is no run and no state). Safe. -/
  | imageDoesNotFit
  deriving DecidableEq, Repr

/-- The three outcomes of a step. -/
abbrev Result := Host.Outcome State Fault Refusal

/-- R36: the state after a load of an empty object module with the defaults of R7. The spec gives `run`, GR7 and
`steps`. The other values are the model's: PR (log 4), GR0 to GR6 (log 5), the flags (log 6), memory (log 7), the step
limit and trace (log 3), the host's pending `start()` (log 9), no abort (log 10), a device without lines (log 11), no draw (log 20). -/
def State.reset : State where
  run    := .ready
  gr     := #v[0, 0, 0, 0, 0, 0, 0, 0xFFFF]
  pr     := 0
  fr     := ⟨false, false, false⟩
  mem    := []
  steps  := 0
  params := {}
  host   := ⟨[.start], []⟩
  dev    := ⟨[], .endOfInput, []⟩
  draws  := 0

end Sys2Proof.Machine
end

