-- ==== Sys2Proof/Machine/Memory.lean ====
section
/-! DEFINITION. The word memory (20_memory.md R50, R52): its canonical form, reading and writing one word, and the
writes of several words that a load and an IN are made of. -/

namespace Sys2Proof.Machine

/-- What an address that memory does not list reads as. DESIGN CHOICE, unsafe (log 7): the spec gives memory outside
the image any value (R36, MEM_RESET). -/
def unlistedWord : Word := 0

/-- The canonical form from address `lo` on: addresses strictly rising, inside the address space, and no word equal
to what an unlisted address reads as. -/
def Memory.wfFrom : Nat → Memory → Bool
  | _, [] => true
  | lo, (a, v) :: m => decide (lo ≤ a) && decide (a < memWords) && (v != unlistedWord) && Memory.wfFrom (a + 1) m

/-- The canonical form: equal memories are equal lists. -/
def Memory.wf (m : Memory) : Bool := Memory.wfFrom 0 m

/-- The word at an address. -/
def Memory.read : Memory → Nat → Word
  | [], _ => unlistedWord
  | (b, u) :: m, a => if a = b then u else if a < b then unlistedWord else Memory.read m a

/-- Memory with the word at `a` replaced by `v`, in the canonical form. -/
def Memory.write : Memory → Nat → Word → Memory
  | [], a, v => if v = unlistedWord then [] else [(a, v)]
  | (b, u) :: m, a, v =>
    if a < b then (if v = unlistedWord then (b, u) :: m else (a, v) :: (b, u) :: m)
    else if a = b then (if v = unlistedWord then m else (a, v) :: m)
    else (b, u) :: Memory.write m a v

/-- The words at `a`, `a + 1`, ..., `n` of them. -/
def Memory.readWords (m : Memory) (a : Nat) : Nat → List Word
  | 0 => []
  | n + 1 => m.read a :: Memory.readWords m (a + 1) n

/-- Write a list of words at `a`, `a + 1`, ..., in that order. -/
def Memory.writeWords (m : Memory) (a : Nat) : List Word → Memory
  | [] => m
  | v :: vs => Memory.writeWords (m.write a v) (a + 1) vs

/-- R290: memory holding the listed words and the unlisted word everywhere else; of two entries for one address the
later counts, and an address outside the memory has no word to hold (log 17). -/
def Memory.ofCells : Memory → List (Nat × Word) → Memory
  | m, [] => m
  | m, (a, v) :: cs => Memory.ofCells (if a < memWords then m.write a v else m) cs

/-- R290: the image's words placed from `a` on; a `reserved` entry leaves its word as it is (C17). -/
def Memory.placeImage (m : Memory) (a : Nat) : List ImageEntry → Memory
  | [] => m
  | .word w :: es => Memory.placeImage (m.write a w) (a + 1) es
  | .reserved :: es => Memory.placeImage m (a + 1) es

end Sys2Proof.Machine
end

