-- ==== Sys2Proof/Machine/Ops.lean ====
section
/-! DEFINITION. The named operations that every instruction is made of: registers, flags, bounds-checked memory
access, the stack, completing an instruction, and taking a run-time error. -/

namespace Sys2Proof.Machine

/-! ### State updates -/

/-- R10 `GR[i]`. No register is hardwired (R20). -/
def State.reg (s : State) (r : Reg) : Word := s.gr[r]

/-- R10 `GR[i] <- v`. -/
def State.setReg (s : State) (r : Reg) (v : Word) : State := { s with gr := s.gr.set r v }

/-- All three flags are recomputed together (R29). -/
def State.setFlags (s : State) (f : Flags) : State := { s with fr := f }

def State.setMem (s : State) (m : Memory) : State := { s with mem := m }

def State.setRun (s : State) (r : RunState) : State := { s with run := r }

def State.setDev (s : State) (d : Device) : State := { s with dev := d }

def State.setHost (s : State) (h : HostPort) : State := { s with host := h }

/-- The next value of the free value is another one (log 20). -/
def State.draw (s : State) : State := { s with draws := s.draws + 1 }

/-! ### Completing an instruction (R108) -/

/-- No control transfer: `PR <- PR + I.len; STEPS <- STEPS + 1`. -/
def State.advance (s : State) (len : Nat) : State := { s with pr := s.pr + len, steps := s.steps + 1 }

/-- A control transfer: `PR <- target; STEPS <- STEPS + 1`. -/
def State.goto (s : State) (target : Nat) : State := { s with pr := target, steps := s.steps + 1 }

/-! ### Run-time errors (R263) -/

/-- R263: taking a run-time error. The run state becomes `Halted(error e)` and nothing else changes: no register is
saved, there is no handler and no mode. There is no return from it (R265): only a new load leaves the state. -/
def State.trap (s : State) (e : RunError) : State := { s with run := .haltedError e }

/-- R107: an instruction's writes all take effect, or it raises an error and none of them does. `s` is the state the
instruction began in. -/
def finish (s : State) (outcome : Except RunError State) : Result :=
  match outcome with
  | .ok t => .next t
  | .error e => .next (s.trap e)

/-- R261: the spec's number for the way a run ended; 0 is the normal halt. -/
def RunError.code : RunError → Nat
  | .memoryAccess _ => 1
  | .stackFault _ _ => 2
  | .illegalInstruction _ _ => 3
  | .stepLimitExceeded _ => 4
  | .aborted => 5
  | .endOfInput => 6

/-- R261: the code of a run that has ended. -/
def RunState.code : RunState → Option Nat
  | .ready => none
  | .running => none
  | .haltedNormal => some 0
  | .haltedError e => some e.code

/-- R28: FR as the number a register dump shows, `OF*4 + SF*2 + ZF`. No instruction reads it. -/
def Flags.dump (f : Flags) : Nat := f.OF.toNat * 4 + f.SF.toNat * 2 + f.ZF.toNat

/-! ### Memory access (R52) -/

/-- R52 `MemRead(a, 1)`. -/
def memRead (s : State) (a : Nat) : Except RunError Word :=
  if memWords ≤ a then .error (.memoryAccess a) else .ok (s.mem.read a)

/-- R52 `MemWrite(a, 1, v)`. -/
def memWrite (s : State) (a : Nat) (v : Word) : Except RunError State :=
  if memWords ≤ a then .error (.memoryAccess a) else .ok (s.setMem (s.mem.write a v))

/-! ### The stack (R190 to R192) -/

/-- R190: the stack pointer. -/
def State.sp (s : State) : Word := s.reg spReg

/-- R191 `push(v)`. -/
def push (s : State) (v : Word) : Except RunError State :=
  if s.sp = 0 then .error (.stackFault s.sp .overflow)
  else do
    let t ← memWrite s (uns s.sp - 1) v
    .ok (t.setReg spReg (s.sp - 1))

/-- R192 `pop()`: the word and the state with GR7 moved up. -/
def pop (s : State) : Except RunError (Word × State) :=
  if uns s.params.spInit ≤ uns s.sp then .error (.stackFault s.sp .underflow)
  else do
    let v ← memRead s (uns s.sp)
    .ok (v, s.setReg spReg (s.sp + 1))

/-! ### The I/O device (R273 to R275) -/

/-- What the device answers to `read_line`; a line comes with the device after the call. -/
inductive Answer where
  | line (l : Line) (d : Device)
  | endOfInput
  | never
  deriving DecidableEq, Repr

/-- R274 `read_line()`: the next line of the script; once it is used up, end-of-input, or no answer at all. -/
def readLine (d : Device) : Answer :=
  match d.input with
  | l :: rest => .line l { d with input := rest }
  | [] =>
    match d.atEnd with
    | .endOfInput => .endOfInput
    | .noAnswer => .never

/-- R275 `write_line(line)`: the lines written, in order. -/
def writeLine (d : Device) (l : Line) : Device := { d with output := d.output ++ [l] }

/-! ### The step's own inputs (R101, R102) -/

/-- R101: the abort signal as sampled at this fetch boundary. -/
def abortAsserted (h : HostPort) : Bool :=
  match h.abort with
  | [] => false
  | b :: _ => b

/-- The host's inputs once this fetch boundary has sampled the abort signal (log 10). -/
def sampled (h : HostPort) : HostPort := { h with abort := h.abort.tail }

/-- R102: the limit, where `STEP_LIMIT = L` and `STEPS ≥ L`. -/
def limitReached (s : State) : Option Nat :=
  match s.params.stepLimit with
  | none => none
  | some l => if l ≤ s.steps then some l else none

end Sys2Proof.Machine
end

