-- ==== Sys2Proof/Machine/Flags.lean ====
section
/-! DEFINITION. The results and the flags (00_scope.md R11; 41_arithmetic.md R120 to R124; 42_logical.md R140;
43_shift.md R150 to R154; 44_compare.md R160, R161). Every sum and difference is computed exactly and narrowed at
the end. -/

namespace Sys2Proof.Machine

/-- A result with the flags it sets. -/
structure Alu where
  res : Word
  fr  : Flags
  deriving DecidableEq, Repr

/-- R11 `setSZ`: SF is bit 15 of the truncated result, ZF says whether it is 0. -/
def withSZ (res : Word) (overflow : Bool) : Alu := ⟨res, ⟨overflow, res.getLsbD 15, res == 0⟩⟩

/-- R120, R122: an exact result outside the signed range. -/
def signedOverflow (s : Int) : Bool := decide (s < -32768) || decide (32767 < s)

/-- R121, R123, R124: OF after an unsigned operation whose exact result is `u`: 0 under `never`, the carry or borrow
under `carry`. -/
def unsignedOverflow (p : UnsignedOfPolicy) (u : Int) : Bool :=
  match p with
  | .never => false
  | .carry => decide (u < 0) || decide (65535 < u)

/-- R120. -/
def addA (a b : Word) : Alu := withSZ (trunc16 (sgn a + sgn b)) (signedOverflow (sgn a + sgn b))

/-- R121. -/
def addL (p : UnsignedOfPolicy) (a b : Word) : Alu :=
  withSZ (trunc16 ((uns a : Int) + uns b)) (unsignedOverflow p ((uns a : Int) + uns b))

/-- R122. -/
def subA (a b : Word) : Alu := withSZ (trunc16 (sgn a - sgn b)) (signedOverflow (sgn a - sgn b))

/-- R123. -/
def subL (p : UnsignedOfPolicy) (a b : Word) : Alu :=
  withSZ (trunc16 ((uns a : Int) - uns b)) (unsignedOverflow p ((uns a : Int) - uns b))

/-- R160: the flags of `subA`. -/
def cmpA (a b : Word) : Flags := (subA a b).fr

/-- R161: the flags of `subL`. -/
def cmpL (p : UnsignedOfPolicy) (a b : Word) : Flags := (subL p a b).fr

/-- R140, R150: a logical or shift result clears OF. -/
def logical (res : Word) : Alu := withSZ res false

/-- R151: bit 15 kept, bits 14..0 shifted left, zeros entering at bit 0. -/
def shiftLeftA (a : Word) (n : Nat) : Word :=
  (a &&& 0x8000) ||| (trunc16 ((uns a * 2 ^ n : Nat) : Int) &&& 0x7FFF)

/-- R152: `trunc16(floor(sgn(a) / 2^n))`. -/
def shiftRightA (a : Word) (n : Nat) : Word := trunc16 (sgn a / ((2 ^ n : Nat) : Int))

/-- R153: `trunc16(uns(a) * 2^n)`. -/
def shiftLeftL (a : Word) (n : Nat) : Word := trunc16 ((uns a * 2 ^ n : Nat) : Int)

/-- R154: `floor(uns(a) / 2^n)`. -/
def shiftRightL (a : Word) (n : Nat) : Word := trunc16 ((uns a / 2 ^ n : Nat) : Int)

end Sys2Proof.Machine
end

