-- ==== Sys2Proof/WellFormed.lean ====
section
/-! DEFINITION. The one check that Syntax does not make by its types: GR0 is no index register (R23, R77).
A register operand is a `Fin 8` (R74) and `adr` a word, so neither needs a check. -/

namespace Sys2Proof

/-- R76, R77: the address operand's `adr` and index register, for the formats RA and A. -/
def Instr.addressOperand : Instr → Option (Word × Option Reg)
  | .nop => none
  | .ldMem _ adr x => some (adr, x)
  | .st _ adr x => some (adr, x)
  | .lad _ adr x => some (adr, x)
  | .ldReg _ _ => none
  | .addaMem _ adr x => some (adr, x)
  | .subaMem _ adr x => some (adr, x)
  | .addlMem _ adr x => some (adr, x)
  | .sublMem _ adr x => some (adr, x)
  | .addaReg _ _ => none
  | .subaReg _ _ => none
  | .addlReg _ _ => none
  | .sublReg _ _ => none
  | .andMem _ adr x => some (adr, x)
  | .orMem _ adr x => some (adr, x)
  | .xorMem _ adr x => some (adr, x)
  | .andReg _ _ => none
  | .orReg _ _ => none
  | .xorReg _ _ => none
  | .cpaMem _ adr x => some (adr, x)
  | .cplMem _ adr x => some (adr, x)
  | .cpaReg _ _ => none
  | .cplReg _ _ => none
  | .sla _ adr x => some (adr, x)
  | .sra _ adr x => some (adr, x)
  | .sll _ adr x => some (adr, x)
  | .srl _ adr x => some (adr, x)
  | .jmi adr x => some (adr, x)
  | .jnz adr x => some (adr, x)
  | .jze adr x => some (adr, x)
  | .jump adr x => some (adr, x)
  | .jpl adr x => some (adr, x)
  | .jov adr x => some (adr, x)
  | .push adr x => some (adr, x)
  | .pop _ => none
  | .call adr x => some (adr, x)
  | .ret => none
  | .svc adr x => some (adr, x)

/-- R23: GR1 to GR7 can be index registers, GR0 cannot. -/
def indexOk (x : Option Reg) : Bool := x != some 0

/-- An instruction that some words spell: its index register, where it has one, is GR1 to GR7. -/
def Instr.wf (i : Instr) : Bool :=
  match i.addressOperand with
  | some (_, x) => indexOk x
  | none => true

end Sys2Proof
end

