-- ==== Sys2Proof/Decode.lean ====
section
/-! DEFINITION. Decoding words into instructions, total, rejecting by name (30_encoding.md R70 to R82); then the
encoder, written from the same tables; then the opcode table as masks and patterns (R81). -/

namespace Sys2Proof

/-! ### Fields of word 1 (R71) -/

/-- Bits 15..8. -/
def fieldOp (w : Word) : BitVec 8 := w.extractLsb' 8 8

/-- Bits 7..4: `r` or `r1`. -/
def fieldR (w : Word) : BitVec 4 := w.extractLsb' 4 4

/-- Bits 3..0: `x` or `r2`. -/
def fieldX (w : Word) : BitVec 4 := w.extractLsb' 0 4

/-- Why words spell no instruction. The first three are R81 (a), (b), (c); the last is a sequence of words that
ends before the instruction does. No rule reads the reason (log 21). -/
inductive Reject where
  | unknownOpcode (op : BitVec 8)
  | registerField (f : BitVec 4)
  | unusedField (f : BitVec 4)
  | truncated
  deriving DecidableEq, Repr

/-- What word 1 alone fixes (R104): the instruction, or the instruction but for its `adr`, the word that follows. -/
inductive Head where
  | whole (i : Instr)
  | needsAdr (i : Word → Instr)

/-- R74: a register field names GR0 to GR7 by the values 0 to 7. -/
def readReg (f : BitVec 4) : Except Reject Reg :=
  if h : f.toNat < 8 then .ok ⟨f.toNat, h⟩ else .error (.registerField f)

/-- R77: an index field of 0 means "no index register". -/
def readIndex (f : BitVec 4) : Except Reject (Option Reg) :=
  if f = 0 then .ok none
  else match readReg f with
    | .ok r => .ok (some r)
    | .error e => .error e

/-- R75: a field the format does not use must be 0. -/
def requireZero (f : BitVec 4) (h : Head) : Except Reject Head :=
  if f = 0 then .ok h else .error (.unusedField f)

/-! ### The formats (R72) -/

/-- Format N: op, r = 0, x = 0. -/
def headN (w : Word) (i : Instr) : Except Reject Head :=
  if fieldR w = 0 then requireZero (fieldX w) (.whole i) else .error (.unusedField (fieldR w))

/-- Format RR: op, r1, r2. -/
def headRR (w : Word) (i : Reg → Reg → Instr) : Except Reject Head :=
  match readReg (fieldR w), readReg (fieldX w) with
  | .ok r1, .ok r2 => .ok (.whole (i r1 r2))
  | .error e, _ => .error e
  | .ok _, .error e => .error e

/-- Format R: op, r, x = 0. -/
def headR (w : Word) (i : Reg → Instr) : Except Reject Head :=
  match readReg (fieldR w) with
  | .ok r => requireZero (fieldX w) (.whole (i r))
  | .error e => .error e

/-- Format RA: op, r, x; adr. -/
def headRA (w : Word) (i : Reg → Word → Option Reg → Instr) : Except Reject Head :=
  match readReg (fieldR w), readIndex (fieldX w) with
  | .ok r, .ok x => .ok (.needsAdr fun adr => i r adr x)
  | .error e, _ => .error e
  | .ok _, .error e => .error e

/-- Format A: op, r = 0, x; adr. -/
def headA (w : Word) (i : Word → Option Reg → Instr) : Except Reject Head :=
  match readIndex (fieldX w) with
  | .ok x => requireZero (fieldR w) (.needsAdr fun adr => i adr x)
  | .error e => .error e

/-- R80, R81, R104: word 1 against the opcode map. -/
def decodeHead (w : Word) : Except Reject Head :=
  match (fieldOp w).toNat with
  | 0x00 => headN w .nop
  | 0x10 => headRA w .ldMem
  | 0x11 => headRA w .st
  | 0x12 => headRA w .lad
  | 0x14 => headRR w .ldReg
  | 0x20 => headRA w .addaMem
  | 0x21 => headRA w .subaMem
  | 0x22 => headRA w .addlMem
  | 0x23 => headRA w .sublMem
  | 0x24 => headRR w .addaReg
  | 0x25 => headRR w .subaReg
  | 0x26 => headRR w .addlReg
  | 0x27 => headRR w .sublReg
  | 0x30 => headRA w .andMem
  | 0x31 => headRA w .orMem
  | 0x32 => headRA w .xorMem
  | 0x34 => headRR w .andReg
  | 0x35 => headRR w .orReg
  | 0x36 => headRR w .xorReg
  | 0x40 => headRA w .cpaMem
  | 0x41 => headRA w .cplMem
  | 0x44 => headRR w .cpaReg
  | 0x45 => headRR w .cplReg
  | 0x50 => headRA w .sla
  | 0x51 => headRA w .sra
  | 0x52 => headRA w .sll
  | 0x53 => headRA w .srl
  | 0x61 => headA w .jmi
  | 0x62 => headA w .jnz
  | 0x63 => headA w .jze
  | 0x64 => headA w .jump
  | 0x65 => headA w .jpl
  | 0x66 => headA w .jov
  | 0x70 => headA w .push
  | 0x71 => headR w .pop
  | 0x80 => headA w .call
  | 0x81 => headN w .ret
  | 0xF0 => headA w .svc
  | _ => .error (.unknownOpcode (fieldOp w))

/-- Decode the instruction at the front of a sequence of words; the words after it are the second component.
Total; word 2 is looked at only after word 1 has decoded (R81, R104). -/
def decode : List Word → Except Reject (Instr × List Word)
  | [] => .error .truncated
  | w1 :: ws =>
    match decodeHead w1 with
    | .error e => .error e
    | .ok (.whole i) => .ok (i, ws)
    | .ok (.needsAdr i) =>
      match ws with
      | [] => .error .truncated
      | w2 :: rest => .ok (i w2, rest)

/-- The host's numbering of an instruction's bits: bit 0 is the least significant bit of word 1, and word 2 is
bits 31..16. Bits at and above `nbits` are 0. -/
def tableWords (nbits w : Nat) : Word × Word :=
  let v := w % 2 ^ nbits
  (BitVec.ofNat 16 v, BitVec.ofNat 16 (v / 65536))

/-- The instruction that the words of an opcode-table row spell, in the host's numbering. -/
def decodeTableWord (nbits w : Nat) : Option Instr :=
  match decode [(tableWords nbits w).1, (tableWords nbits w).2] with
  | .ok (i, _) => some i
  | .error _ => none

/-! ### The encoder -/

/-- R74: the register field that names a register. -/
def regField (r : Reg) : BitVec 4 := BitVec.ofNat 4 r.val

/-- R77: the index field, 0 for "no index". -/
def indexField : Option Reg → BitVec 4
  | none => 0
  | some r => regField r

/-- R71: word 1 from its three fields. -/
def word1 (op : BitVec 8) (r x : BitVec 4) : Word := (op ++ r ++ x : BitVec (8 + 4 + 4))

/-- R71, R80: word 1 of an instruction. -/
def firstWord : Instr → Word
  | .nop => word1 0x00 0 0
  | .ldMem r _ x => word1 0x10 (regField r) (indexField x)
  | .st r _ x => word1 0x11 (regField r) (indexField x)
  | .lad r _ x => word1 0x12 (regField r) (indexField x)
  | .ldReg r1 r2 => word1 0x14 (regField r1) (regField r2)
  | .addaMem r _ x => word1 0x20 (regField r) (indexField x)
  | .subaMem r _ x => word1 0x21 (regField r) (indexField x)
  | .addlMem r _ x => word1 0x22 (regField r) (indexField x)
  | .sublMem r _ x => word1 0x23 (regField r) (indexField x)
  | .addaReg r1 r2 => word1 0x24 (regField r1) (regField r2)
  | .subaReg r1 r2 => word1 0x25 (regField r1) (regField r2)
  | .addlReg r1 r2 => word1 0x26 (regField r1) (regField r2)
  | .sublReg r1 r2 => word1 0x27 (regField r1) (regField r2)
  | .andMem r _ x => word1 0x30 (regField r) (indexField x)
  | .orMem r _ x => word1 0x31 (regField r) (indexField x)
  | .xorMem r _ x => word1 0x32 (regField r) (indexField x)
  | .andReg r1 r2 => word1 0x34 (regField r1) (regField r2)
  | .orReg r1 r2 => word1 0x35 (regField r1) (regField r2)
  | .xorReg r1 r2 => word1 0x36 (regField r1) (regField r2)
  | .cpaMem r _ x => word1 0x40 (regField r) (indexField x)
  | .cplMem r _ x => word1 0x41 (regField r) (indexField x)
  | .cpaReg r1 r2 => word1 0x44 (regField r1) (regField r2)
  | .cplReg r1 r2 => word1 0x45 (regField r1) (regField r2)
  | .sla r _ x => word1 0x50 (regField r) (indexField x)
  | .sra r _ x => word1 0x51 (regField r) (indexField x)
  | .sll r _ x => word1 0x52 (regField r) (indexField x)
  | .srl r _ x => word1 0x53 (regField r) (indexField x)
  | .jmi _ x => word1 0x61 0 (indexField x)
  | .jnz _ x => word1 0x62 0 (indexField x)
  | .jze _ x => word1 0x63 0 (indexField x)
  | .jump _ x => word1 0x64 0 (indexField x)
  | .jpl _ x => word1 0x65 0 (indexField x)
  | .jov _ x => word1 0x66 0 (indexField x)
  | .push _ x => word1 0x70 0 (indexField x)
  | .pop r => word1 0x71 (regField r) 0
  | .call _ x => word1 0x80 0 (indexField x)
  | .ret => word1 0x81 0 0
  | .svc _ x => word1 0xF0 0 (indexField x)

/-- R70: word 1, and for the formats RA and A word 2 = adr. -/
def encode (i : Instr) : List Word :=
  match i.addressOperand with
  | some (adr, _) => [firstWord i, adr]
  | none => [firstWord i]

/-! ### The opcode table as masks and patterns (R81, spec/opcode_table.json) -/

/-- A row of spec/opcode_table.json: word 1 spells the row's instruction when `w1 & mask = pattern`. -/
structure Row where
  mnemonic : String
  format   : Format
  pattern  : Word
  mask     : Word
  deriving DecidableEq, Repr

def rowsLoadStore : List Row :=
  [⟨"NOP", .N, 0x0000, 0xFFFF⟩,
   ⟨"LD", .RA, 0x1000, 0xFF88⟩,
   ⟨"ST", .RA, 0x1100, 0xFF88⟩,
   ⟨"LAD", .RA, 0x1200, 0xFF88⟩,
   ⟨"LD", .RR, 0x1400, 0xFF88⟩]

def rowsArithmetic : List Row :=
  [⟨"ADDA", .RA, 0x2000, 0xFF88⟩,
   ⟨"SUBA", .RA, 0x2100, 0xFF88⟩,
   ⟨"ADDL", .RA, 0x2200, 0xFF88⟩,
   ⟨"SUBL", .RA, 0x2300, 0xFF88⟩,
   ⟨"ADDA", .RR, 0x2400, 0xFF88⟩,
   ⟨"SUBA", .RR, 0x2500, 0xFF88⟩,
   ⟨"ADDL", .RR, 0x2600, 0xFF88⟩,
   ⟨"SUBL", .RR, 0x2700, 0xFF88⟩]

def rowsLogical : List Row :=
  [⟨"AND", .RA, 0x3000, 0xFF88⟩,
   ⟨"OR", .RA, 0x3100, 0xFF88⟩,
   ⟨"XOR", .RA, 0x3200, 0xFF88⟩,
   ⟨"AND", .RR, 0x3400, 0xFF88⟩,
   ⟨"OR", .RR, 0x3500, 0xFF88⟩,
   ⟨"XOR", .RR, 0x3600, 0xFF88⟩]

def rowsCompareShift : List Row :=
  [⟨"CPA", .RA, 0x4000, 0xFF88⟩,
   ⟨"CPL", .RA, 0x4100, 0xFF88⟩,
   ⟨"CPA", .RR, 0x4400, 0xFF88⟩,
   ⟨"CPL", .RR, 0x4500, 0xFF88⟩,
   ⟨"SLA", .RA, 0x5000, 0xFF88⟩,
   ⟨"SRA", .RA, 0x5100, 0xFF88⟩,
   ⟨"SLL", .RA, 0x5200, 0xFF88⟩,
   ⟨"SRL", .RA, 0x5300, 0xFF88⟩]

def rowsControl : List Row :=
  [⟨"JMI", .A, 0x6100, 0xFFF8⟩,
   ⟨"JNZ", .A, 0x6200, 0xFFF8⟩,
   ⟨"JZE", .A, 0x6300, 0xFFF8⟩,
   ⟨"JUMP", .A, 0x6400, 0xFFF8⟩,
   ⟨"JPL", .A, 0x6500, 0xFFF8⟩,
   ⟨"JOV", .A, 0x6600, 0xFFF8⟩,
   ⟨"PUSH", .A, 0x7000, 0xFFF8⟩,
   ⟨"POP", .R, 0x7100, 0xFF8F⟩,
   ⟨"CALL", .A, 0x8000, 0xFFF8⟩,
   ⟨"RET", .N, 0x8100, 0xFFFF⟩,
   ⟨"SVC", .A, 0xF000, 0xFFF8⟩]

/-- The 38 rows, in the table's order. -/
def opcodeTable : List Row :=
  rowsLoadStore ++ rowsArithmetic ++ rowsLogical ++ rowsCompareShift ++ rowsControl

/-- R81: whether word 1 `w` matches the row. -/
def Row.matches (row : Row) (w : Word) : Bool := w &&& row.mask == row.pattern

end Sys2Proof
end

