-- ==== Sys2Proof/Machine/Operands.lean ====
section
/-! DEFINITION. The operand forms (30_encoding.md R76 to R79; 47_load_store.md R210): a register, the effective
address as a value, and the word at the effective address; and the fetch of an instruction (R103 to R105). -/

namespace Sys2Proof.Machine

/-- R77: what the index register adds, as an unsigned number; "no index" adds 0. -/
def indexValue (s : State) : Option Reg → Nat
  | none => 0
  | some r => uns (s.reg r)

/-- R78: `sum = uns(adr) + (x == 0 ? 0 : uns(GR[x]))`, 0 to 131,070. -/
def eaSum (s : State) (adr : Word) (x : Option Reg) : Nat := uns adr + indexValue s x

/-- R78: the effective address, a 16-bit value. Above 0xFFFF it raises MemoryAccessError(sum) under `fault` and is
reduced by 65,536 under `wrap`. -/
def effectiveAddress (s : State) (adr : Word) (x : Option Reg) : Except RunError Word :=
  let sum := eaSum s adr x
  if sum < memWords then .ok (BitVec.ofNat 16 sum)
  else match s.params.eaPolicy with
    | .fault => .error (.memoryAccess sum)
    | .wrap => .ok (BitVec.ofNat 16 (sum - memWords))

/-- R76, R210: the memory operand of a format RA instruction, the word at the effective address. -/
def memOperand (s : State) (adr : Word) (x : Option Reg) : Except RunError Word := do
  let ea ← effectiveAddress s adr x
  memRead s (uns ea)

/-- R103 to R105: the instruction at PR. Word 1 is fetched and decoded before word 2 is fetched. -/
def fetch (s : State) : Except RunError Instr := do
  let w1 ← memRead s s.pr
  match decodeHead w1 with
  | .error _ => .error (.illegalInstruction s.pr w1)
  | .ok (.whole i) => .ok i
  | .ok (.needsAdr i) => do
    let w2 ← memRead s (s.pr + 1)
    .ok (i w2)

end Sys2Proof.Machine
end

