-- ==== Sys2Proof/Machine/Shapes.lean ====
section
/-! DEFINITION. The shared shapes of the arithmetic, logical, compare, shift and jump instructions, each once; a meaning is one of
them at its own operation. -/

namespace Sys2Proof.Machine

/-- The memory form of an operation on GR[r] and the word at EA that writes GR[r] and the flags (R125 to R128, R141 to
R143). -/
def aluMem (op : Word → Word → Alu) (r : Reg) (adr : Word) (x : Option Reg) (s : State) : Result :=
  finish s do
    let v ← memOperand s adr x
    let a := op (s.reg r) v
    .ok (((s.setReg r a.res).setFlags a.fr).advance 2)

/-- The register form of an operation on GR[r1] and GR[r2] that writes GR[r1] and the flags (R129 to R132, R144 to
R146). -/
def aluReg (op : Word → Word → Alu) (r1 r2 : Reg) (s : State) : Result :=
  let a := op (s.reg r1) (s.reg r2)
  finish s (.ok (((s.setReg r1 a.res).setFlags a.fr).advance 1))

/-- The memory form of a compare of GR[r] with the word at EA: the flags and nothing else (R162, R163). -/
def compareMem (op : Word → Word → Flags) (r : Reg) (adr : Word) (x : Option Reg) (s : State) : Result :=
  finish s do
    let v ← memOperand s adr x
    .ok ((s.setFlags (op (s.reg r) v)).advance 2)

/-- The register form of a compare of GR[r1] with GR[r2] (R164, R165). -/
def compareReg (op : Word → Word → Flags) (r1 r2 : Reg) (s : State) : Result :=
  finish s (.ok ((s.setFlags (op (s.reg r1) (s.reg r2))).advance 1))

/-- R150: a shift of GR[r] by the effective address as a count, writing GR[r] and the flags. -/
def shiftBy (op : Word → Nat → Word) (r : Reg) (adr : Word) (x : Option Reg) (s : State) : Result :=
  finish s do
    let n ← effectiveAddress s adr x
    let a := logical (op (s.reg r) (uns n))
    .ok (((s.setReg r a.res).setFlags a.fr).advance 2)

/-- R170: a jump: the effective-address test is made whether or not the jump is taken; a taken jump goes to EA,
another falls through. -/
def jumpIf (taken : Bool) (adr : Word) (x : Option Reg) (s : State) : Result :=
  finish s do
    let ea ← effectiveAddress s adr x
    .ok (if taken then s.goto (uns ea) else s.advance 2)

end Sys2Proof.Machine
end

