-- ==== Sys2Proof/Machine/Arithmetic.lean ====
section
/-! DEFINITION. Arithmetic (41_arithmetic.md R125 to R133). -/

namespace Sys2Proof.Machine

/-- R125 ADDA r,adr,x: `GR[r] <- addA(GR[r], Mem[EA])`, flags by R120. -/
def execAddaMem (r : Reg) (adr : Word) (x : Option Reg) (s : State) : Result :=
  aluMem addA r adr x s

/-- R126 ADDL r,adr,x: `GR[r] <- addL(GR[r], Mem[EA])`, flags by R121. -/
def execAddlMem (r : Reg) (adr : Word) (x : Option Reg) (s : State) : Result :=
  aluMem (addL s.params.unsignedOf) r adr x s

/-- R127 SUBA r,adr,x: `GR[r] <- subA(GR[r], Mem[EA])`, flags by R122. -/
def execSubaMem (r : Reg) (adr : Word) (x : Option Reg) (s : State) : Result :=
  aluMem subA r adr x s

/-- R128 SUBL r,adr,x: `GR[r] <- subL(GR[r], Mem[EA])`, flags by R123. -/
def execSublMem (r : Reg) (adr : Word) (x : Option Reg) (s : State) : Result :=
  aluMem (subL s.params.unsignedOf) r adr x s

/-- R129 ADDA r1,r2: `GR[r1] <- addA(GR[r1], GR[r2])`, flags by R120. -/
def execAddaReg (r1 r2 : Reg) (s : State) : Result :=
  aluReg addA r1 r2 s

/-- R130 ADDL r1,r2: `GR[r1] <- addL(GR[r1], GR[r2])`, flags by R121. -/
def execAddlReg (r1 r2 : Reg) (s : State) : Result :=
  aluReg (addL s.params.unsignedOf) r1 r2 s

/-- R131 SUBA r1,r2: `GR[r1] <- subA(GR[r1], GR[r2])`, flags by R122. -/
def execSubaReg (r1 r2 : Reg) (s : State) : Result :=
  aluReg subA r1 r2 s

/-- R132 SUBL r1,r2: `GR[r1] <- subL(GR[r1], GR[r2])`, flags by R123. -/
def execSublReg (r1 r2 : Reg) (s : State) : Result :=
  aluReg (subL s.params.unsignedOf) r1 r2 s

end Sys2Proof.Machine
end

