-- ==== Sys2Proof/Machine/Branch.lean ====
section
/-! DEFINITION. Jump instructions (45_branch.md R170 to R177). -/

namespace Sys2Proof.Machine

/-- R171, R177 JMI adr,x: taken when SF = 1. -/
def execJmi (adr : Word) (x : Option Reg) (s : State) : Result :=
  jumpIf s.fr.SF adr x s

/-- R172, R177 JNZ adr,x: taken when ZF = 0. -/
def execJnz (adr : Word) (x : Option Reg) (s : State) : Result :=
  jumpIf (!s.fr.ZF) adr x s

/-- R173, R177 JZE adr,x: taken when ZF = 1. -/
def execJze (adr : Word) (x : Option Reg) (s : State) : Result :=
  jumpIf s.fr.ZF adr x s

/-- R174, R177 JUMP adr,x: always taken. -/
def execJump (adr : Word) (x : Option Reg) (s : State) : Result :=
  jumpIf true adr x s

/-- R175, R177 JPL adr,x: taken when SF = 0 and ZF = 0. -/
def execJpl (adr : Word) (x : Option Reg) (s : State) : Result :=
  jumpIf (!s.fr.SF && !s.fr.ZF) adr x s

/-- R176, R177 JOV adr,x: taken when OF = 1. -/
def execJov (adr : Word) (x : Option Reg) (s : State) : Result :=
  jumpIf s.fr.OF adr x s

end Sys2Proof.Machine
end

