-- ==== Sys2Proof/Machine/Compare.lean ====
section
/-! DEFINITION. Compare instructions (44_compare.md R160 to R166): flags only. -/

namespace Sys2Proof.Machine

/-- R162 CPA r,adr,x: the flags of `subA(GR[r], Mem[EA])` (R160). -/
def execCpaMem (r : Reg) (adr : Word) (x : Option Reg) (s : State) : Result :=
  compareMem cmpA r adr x s

/-- R163 CPL r,adr,x: the flags of `subL(GR[r], Mem[EA])` (R161). -/
def execCplMem (r : Reg) (adr : Word) (x : Option Reg) (s : State) : Result :=
  compareMem (cmpL s.params.unsignedOf) r adr x s

/-- R164 CPA r1,r2: the flags of `subA(GR[r1], GR[r2])` (R160). -/
def execCpaReg (r1 r2 : Reg) (s : State) : Result :=
  compareReg cmpA r1 r2 s

/-- R165 CPL r1,r2: the flags of `subL(GR[r1], GR[r2])` (R161). -/
def execCplReg (r1 r2 : Reg) (s : State) : Result :=
  compareReg (cmpL s.params.unsignedOf) r1 r2 s

end Sys2Proof.Machine
end

