-- ==== Sys2Proof/Machine/LoadStore.lean ====
section
/-! DEFINITION. Load and store (47_load_store.md R211 to R214). None of them writes a flag. -/

namespace Sys2Proof.Machine

/-- R211 LD r,adr,x: `GR[r] <- MemRead(EA, 1)`. -/
def execLdMem (r : Reg) (adr : Word) (x : Option Reg) (s : State) : Result :=
  finish s do
    let v ← memOperand s adr x
    .ok ((s.setReg r v).advance 2)

/-- R212 LD r1,r2: `GR[r1] <- GR[r2]`. -/
def execLdReg (r1 r2 : Reg) (s : State) : Result :=
  finish s (.ok ((s.setReg r1 (s.reg r2)).advance 1))

/-- R213 ST r,adr,x: `MemWrite(EA, 1, GR[r])`. -/
def execSt (r : Reg) (adr : Word) (x : Option Reg) (s : State) : Result :=
  finish s do
    let ea ← effectiveAddress s adr x
    let t ← memWrite s (uns ea) (s.reg r)
    .ok (t.advance 2)

/-- R214 LAD r,adr,x: `GR[r] <- EA`. -/
def execLad (r : Reg) (adr : Word) (x : Option Reg) (s : State) : Result :=
  finish s do
    let ea ← effectiveAddress s adr x
    .ok ((s.setReg r ea).advance 2)

end Sys2Proof.Machine
end

