-- ==== Sys2Proof/Machine/Logical.lean ====
section
/-! DEFINITION. Logical instructions (42_logical.md R140 to R146). -/

namespace Sys2Proof.Machine

/-- R141 AND r,adr,x: `GR[r] <- GR[r] AND Mem[EA]`, flags by R140. -/
def execAndMem (r : Reg) (adr : Word) (x : Option Reg) (s : State) : Result :=
  aluMem (fun a v => logical (a &&& v)) r adr x s

/-- R142 OR r,adr,x: `GR[r] <- GR[r] OR Mem[EA]`, flags by R140. -/
def execOrMem (r : Reg) (adr : Word) (x : Option Reg) (s : State) : Result :=
  aluMem (fun a v => logical (a ||| v)) r adr x s

/-- R143 XOR r,adr,x: `GR[r] <- GR[r] XOR Mem[EA]`, flags by R140. -/
def execXorMem (r : Reg) (adr : Word) (x : Option Reg) (s : State) : Result :=
  aluMem (fun a v => logical (a ^^^ v)) r adr x s

/-- R144 AND r1,r2: `GR[r1] <- GR[r1] AND GR[r2]`, flags by R140. -/
def execAndReg (r1 r2 : Reg) (s : State) : Result :=
  aluReg (fun a v => logical (a &&& v)) r1 r2 s

/-- R145 OR r1,r2: `GR[r1] <- GR[r1] OR GR[r2]`, flags by R140. -/
def execOrReg (r1 r2 : Reg) (s : State) : Result :=
  aluReg (fun a v => logical (a ||| v)) r1 r2 s

/-- R146 XOR r1,r2: `GR[r1] <- GR[r1] XOR GR[r2]`, flags by R140. -/
def execXorReg (r1 r2 : Reg) (s : State) : Result :=
  aluReg (fun a v => logical (a ^^^ v)) r1 r2 s

end Sys2Proof.Machine
end

