-- ==== Sys2Proof/Machine/Shift.lean ====
section
/-! DEFINITION. Shift instructions (43_shift.md R150 to R154). -/

namespace Sys2Proof.Machine

/-- R151 SLA r,adr,x: shift left arithmetic by EA. -/
def execSla (r : Reg) (adr : Word) (x : Option Reg) (s : State) : Result :=
  shiftBy shiftLeftA r adr x s

/-- R152 SRA r,adr,x: shift right arithmetic by EA. -/
def execSra (r : Reg) (adr : Word) (x : Option Reg) (s : State) : Result :=
  shiftBy shiftRightA r adr x s

/-- R153 SLL r,adr,x: shift left logical by EA. -/
def execSll (r : Reg) (adr : Word) (x : Option Reg) (s : State) : Result :=
  shiftBy shiftLeftL r adr x s

/-- R154 SRL r,adr,x: shift right logical by EA. -/
def execSrl (r : Reg) (adr : Word) (x : Option Reg) (s : State) : Result :=
  shiftBy shiftRightL r adr x s

end Sys2Proof.Machine
end

