-- ==== Sys2Proof/Machine/Stack.lean ====
section
/-! DEFINITION. Stack, call and return (46_call_stack.md R190 to R197). None of them writes a flag. -/

namespace Sys2Proof.Machine

/-- R193 PUSH adr,x: `push(EA)`, the value EA and not the word at EA. -/
def execPush (adr : Word) (x : Option Reg) (s : State) : Result :=
  finish s do
    let ea ← effectiveAddress s adr x
    let t ← push s ea
    .ok (t.advance 2)

/-- R194 POP r: `v <- pop(); GR[r] <- v`, the write of GR[r] after pop's write of GR7, so that the popped word wins
in POP GR7. -/
def execPop (r : Reg) (s : State) : Result :=
  finish s do
    let (v, t) ← pop s
    .ok ((t.setReg r v).advance 1)

/-- R195: the return address `PR + 2`, which must be a 16-bit address. PR is at most 65,536 (R25), so that the test is
the rule's `ret == 65536` in every state a run reaches (log 15). -/
def returnAddress (s : State) : Except RunError Word :=
  if memWords ≤ s.pr + 2 then .error (.memoryAccess (s.pr + 2)) else .ok (BitVec.ofNat 16 (s.pr + 2))

/-- R195 CALL adr,x: the effective-address test, then the return address, then the push, then `PR <- EA`. -/
def execCall (adr : Word) (x : Option Reg) (s : State) : Result :=
  finish s do
    let ea ← effectiveAddress s adr x
    let back ← returnAddress s
    let t ← push s back
    .ok (t.goto (uns ea))

/-- R196 RET: `PR <- pop()`. -/
def execRet (s : State) : Result :=
  finish s do
    let (v, t) ← pop s
    .ok (t.goto (uns v))

end Sys2Proof.Machine
end

