-- ==== Sys2Proof/Machine/SystemIo.lean ====
section
/-! DEFINITION. No-operation, supervisor call, halt and I/O (48_system_io.md R230 to R237). -/

namespace Sys2Proof.Machine

/-- R230 NOP: `PR <- PR + 1`. -/
def execNop (s : State) : Result := finish s (.ok (s.advance 1))

/-- R232, R109: service 0 completes like any instruction and then the run ends normally. -/
def svcHalt (s : State) : Result := finish s (.ok ((s.advance 2).setRun .haltedNormal))

/-- R233: the codes that an IN stores: the line cut to `m` codes. -/
def storedCodes (m : Nat) (l : Line) : Line := l.take m

/-- R233: the `m` words an IN writes to the buffer: the stored codes, padded with spaces. -/
def paddedLine (m : Nat) (l : Line) : Line :=
  storedCodes m l ++ List.replicate (m - (storedCodes m l).length) padCode

/-- R233: the length word, the number of codes stored. A count that is no 16-bit value leaves it open (log 20). -/
def lengthWord (s : State) (l : Line) : Word :=
  let n := (storedCodes s.params.inMaxLen l).length
  if n < memWords then trunc16 (n : Int) else freeLengthWord s.draws l

/-- R233: the writes of an IN that got the line `l`: the buffer, then the length word. -/
def inWrites (s : State) (l : Line) : Memory :=
  (s.mem.writeWords (uns (s.reg 1)) (paddedLine s.params.inMaxLen l)).write (uns (s.reg 2)) (lengthWord s l)

/-- R233: service 1, IN. The bound is tested before the device is asked. A device that never answers leaves the engine
waiting: no step completes (93 item 15, log 19). -/
def svcIn (s : State) : Result :=
  if memWords < uns (s.reg 1) + s.params.inMaxLen then .next (s.trap (.memoryAccess memWords))
  else match readLine s.dev with
    | .never => .fault .waitingForDevice
    | .endOfInput => .next (s.trap .endOfInput)
    | .line l d => .next (((s.setMem (inWrites s l)).setDev d).draw.advance 2)

/-- R234: service 2, OUT: as many words as the length word says, handed to the device as they are (R237). -/
def svcOut (s : State) : Result :=
  finish s do
    let n ← memRead s (uns (s.reg 2))
    if memWords < uns (s.reg 1) + uns n then .error (.memoryAccess memWords)
    else .ok ((s.setDev (writeLine s.dev (s.mem.readWords (uns (s.reg 1)) (uns n)))).advance 2)

/-- R235: another service raises IllegalInstructionError with PR and the SVC's first word, `0xF0 ++ 0 ++ x` (log 16). -/
def svcUnknown (x : Option Reg) (s : State) : Result :=
  .next (s.trap (.illegalInstruction s.pr (word1 0xF0 0 (indexField x))))

/-- R231 SVC adr,x: the service number is EA. No service writes a general register or a flag. -/
def execSvc (adr : Word) (x : Option Reg) (s : State) : Result :=
  match effectiveAddress s adr x with
  | .error e => .next (s.trap e)
  | .ok n =>
    match uns n with
    | 0 => svcHalt s
    | 1 => svcIn s
    | 2 => svcOut s
    | _ => svcUnknown x s

end Sys2Proof.Machine
end

