-- ==== Sys2Proof/Machine/Cycle.lean ====
section
/-! DEFINITION. The fetch-decode-execute cycle of a running engine (40_execution_cycle.md R101 to R110), and the
placing of an instruction where the next step fetches it. -/

namespace Sys2Proof.Machine

/-- R110: one step of a running engine, in R264's order: abort, step limit, fetch of word 1, decode, fetch of word 2,
then the instruction. The sample of the abort signal is consumed by this fetch boundary (log 10). -/
def engineStep (s : State) : Result :=
  let t := s.setHost (sampled s.host)
  if abortAsserted s.host then .next (t.trap .aborted)
  else match limitReached s with
    | some l => .next (t.trap (.stepLimitExceeded l))
    | none =>
      match fetch s with
      | .error e => .next (t.trap e)
      | .ok i => exec i t

/-- Where an instruction of up to two words can be placed: at PR, or at 0 where PR is the last word or past it. -/
def fetchPlace (s : State) : Nat := if s.pr + 1 < memWords then s.pr else 0

/-- The state with two words placed where the next step fetches, running, with no abort at the next fetch boundary and
no step limit in the way (log 14). Nothing else changes. -/
def placeInstruction (s : State) (w1 w2 : Word) : State :=
  let a := fetchPlace s
  { s with
    run := .running
    pr := a
    mem := (s.mem.write a w1).write (a + 1) w2
    params := if (limitReached s).isSome then { s.params with stepLimit := none } else s.params
    host := if abortAsserted s.host then { s.host with abort := false :: s.host.abort.tail } else s.host }

end Sys2Proof.Machine
end

