-- ==== Sys2Proof/Machine/HostMoves.lean ====
section
/-! DEFINITION. What the host does between runs: load (reset) and start (70_reset_and_hazards.md R290 to R294; 60_exceptions.md R272). -/

namespace Sys2Proof.Machine

/-- R290: the registers after a load: GR_RESET for GR0 to GR6, SP_INIT for GR7. -/
def resetRegs (args : LoadArgs) : Vector Word 8 := args.grReset.push args.params.spInit

/-- R290, R291: memory after a load: MEM_RESET with the image's words placed verbatim from LOAD_BASE on. -/
def resetMem (args : LoadArgs) : Memory :=
  (Memory.ofCells [] args.memReset).placeImage (uns args.loadBase) args.image

/-- R290, R294: a load replaces the whole engine state; the device is not reset, and the host's inputs and
the model's own `draws` (log 20) stand. -/
def loadedState (args : LoadArgs) (host : HostPort) (dev : Device) (draws : Nat) : State where
  run    := .ready
  gr     := resetRegs args
  pr     := uns args.entry
  fr     := args.frReset
  mem    := resetMem args
  steps  := 0
  params := args.params
  host   := host
  dev    := dev
  draws  := draws

/-- R292: a load is refused when the image does not fit, and for no other reason. -/
def load (args : LoadArgs) (s : State) : Result :=
  if memWords < uns args.loadBase + args.image.length then .refused .imageDoesNotFit
  else .next (loadedState args s.host s.dev s.draws)

/-- R293: `start()` moves Ready to Running and changes nothing else; in any other run state it does nothing. -/
def start (s : State) : State :=
  match s.run with
  | .ready => s.setRun .running
  | .running => s
  | .haltedNormal => s
  | .haltedError _ => s

/-- The host's next call, where the engine is not running (log 9). With no call pending the engine has no step
(R100). -/
def hostStep (s : State) : Result :=
  match s.host.calls with
  | [] => .fault (if s.run = .ready then .notStarted else .halted)
  | .start :: cs => .next (start (s.setHost { s.host with calls := cs }))
  | .load args :: cs => load args (s.setHost { s.host with calls := cs })

end Sys2Proof.Machine
end

