-- ==== Sys2Proof/Machine/Step.lean ====
section
/-! DEFINITION. One step of the machine, and an instruction placed where it fetches. -/

namespace Sys2Proof.Machine

/-- R100: only `Running` has steps of the engine. In Ready and in the Halted states the machine takes the host's next
call, if there is one (log 9). -/
def step (s : State) : Host.Outcome State Fault Refusal :=
  match s.run with
  | .running => engineStep s
  | .ready => hostStep s
  | .haltedNormal => hostStep s
  | .haltedError _ => hostStep s

/-- The state with the instruction of an opcode-table row stored where the very next step fetches and runs it
(log 14). -/
def State.withFetchWord (s : State) (nbits w : Nat) : State :=
  placeInstruction s (tableWords nbits w).1 (tableWords nbits w).2

end Sys2Proof.Machine
end

