-- ==== Sys2Proof/Safety.lean ====
section
/-! DEFINITION. The terms the statements are made in: what two states agree on, what a completed instruction leaves
alone, which instructions write which kind of state, and the invariant of the machine. -/

namespace Sys2Proof.Machine

/-! ### Frames -/

/-- Every general register outside `rs` holds what it held. -/
def RegsKeptExcept (rs : List Reg) (s t : State) : Prop := ∀ q : Reg, q ∉ rs → t.reg q = s.reg q

/-- Every word of memory reads as it did. -/
def MemKept (s t : State) : Prop := ∀ a : Nat, t.mem.read a = s.mem.read a

/-- Every word of memory outside the addresses `stored` reads as it did. -/
def MemKeptOutside (stored : Nat → Prop) (s t : State) : Prop :=
  ∀ a : Nat, ¬ stored a → t.mem.read a = s.mem.read a

/-- The run goes on, one more instruction is counted (R108), and the launch parameters, the host's inputs and the
device are as they were. -/
structure Continues (s t : State) : Prop where
  run    : t.run = s.run
  steps  : t.steps = s.steps + 1
  params : t.params = s.params
  host   : t.host = s.host
  dev    : t.dev = s.dev
  draws  : t.draws = s.draws

/-- The outcome is a next state in which GR[r] holds `v`, the flags are `f`, PR is `len` further, and everything else
is as it was. -/
def WritesReg (s : State) (o : Result) (r : Reg) (v : Word) (f : Flags) (len : Nat) : Prop :=
  ∃ t, o = .next t ∧ t.reg r = v ∧ t.fr = f ∧ t.pr = s.pr + len ∧
    RegsKeptExcept [r] s t ∧ MemKept s t ∧ Continues s t

/-- The outcome is a next state in which the flags are `f`, PR is `pr`, and every register, all memory and everything
else are as they were. -/
def WritesNoReg (s : State) (o : Result) (f : Flags) (pr : Nat) : Prop :=
  ∃ t, o = .next t ∧ t.fr = f ∧ t.pr = pr ∧ RegsKeptExcept [] s t ∧ MemKept s t ∧ Continues s t

/-- R263: the outcome is the trap entry for `e`: the run state is Halted(error e) and every other part of the state is
exactly as it was. -/
def TrapsWith (s : State) (o : Result) (e : RunError) : Prop :=
  ∃ t, o = .next t ∧ t.run = .haltedError e ∧
    t.gr = s.gr ∧ t.pr = s.pr ∧ t.fr = s.fr ∧ t.mem = s.mem ∧ t.steps = s.steps ∧
    t.params = s.params ∧ t.host = s.host ∧ t.dev = s.dev ∧ t.draws = s.draws

/-! ### Which instructions write what -/

/-- R29, R30: the arithmetic, logical, shift and compare instructions, the only ones that write the flags. -/
def writesFlags : Instr → Bool
  | .nop => false
  | .ldMem _ _ _ => false
  | .st _ _ _ => false
  | .lad _ _ _ => false
  | .ldReg _ _ => false
  | .addaMem _ _ _ => true
  | .subaMem _ _ _ => true
  | .addlMem _ _ _ => true
  | .sublMem _ _ _ => true
  | .addaReg _ _ => true
  | .subaReg _ _ => true
  | .addlReg _ _ => true
  | .sublReg _ _ => true
  | .andMem _ _ _ => true
  | .orMem _ _ _ => true
  | .xorMem _ _ _ => true
  | .andReg _ _ => true
  | .orReg _ _ => true
  | .xorReg _ _ => true
  | .cpaMem _ _ _ => true
  | .cplMem _ _ _ => true
  | .cpaReg _ _ => true
  | .cplReg _ _ => true
  | .sla _ _ _ => true
  | .sra _ _ _ => true
  | .sll _ _ _ => true
  | .srl _ _ _ => true
  | .jmi _ _ => false
  | .jnz _ _ => false
  | .jze _ _ => false
  | .jump _ _ => false
  | .jpl _ _ => false
  | .jov _ _ => false
  | .push _ _ => false
  | .pop _ => false
  | .call _ _ => false
  | .ret => false
  | .svc _ _ => false

/-- R26: the instructions that may give a target: the jumps, CALL and RET. -/
def transfersControl : Instr → Bool
  | .nop => false
  | .ldMem _ _ _ => false
  | .st _ _ _ => false
  | .lad _ _ _ => false
  | .ldReg _ _ => false
  | .addaMem _ _ _ => false
  | .subaMem _ _ _ => false
  | .addlMem _ _ _ => false
  | .sublMem _ _ _ => false
  | .addaReg _ _ => false
  | .subaReg _ _ => false
  | .addlReg _ _ => false
  | .sublReg _ _ => false
  | .andMem _ _ _ => false
  | .orMem _ _ _ => false
  | .xorMem _ _ _ => false
  | .andReg _ _ => false
  | .orReg _ _ => false
  | .xorReg _ _ => false
  | .cpaMem _ _ _ => false
  | .cplMem _ _ _ => false
  | .cpaReg _ _ => false
  | .cplReg _ _ => false
  | .sla _ _ _ => false
  | .sra _ _ _ => false
  | .sll _ _ _ => false
  | .srl _ _ _ => false
  | .jmi _ _ => true
  | .jnz _ _ => true
  | .jze _ _ => true
  | .jump _ _ => true
  | .jpl _ _ => true
  | .jov _ _ => true
  | .push _ _ => false
  | .pop _ => false
  | .call _ _ => true
  | .ret => true
  | .svc _ _ => false

/-- R24: the general registers an instruction may write. -/
def writtenRegs : Instr → List Reg
  | .nop => []
  | .ldMem r _ _ => [r]
  | .st _ _ _ => []
  | .lad r _ _ => [r]
  | .ldReg r1 _ => [r1]
  | .addaMem r _ _ => [r]
  | .subaMem r _ _ => [r]
  | .addlMem r _ _ => [r]
  | .sublMem r _ _ => [r]
  | .addaReg r1 _ => [r1]
  | .subaReg r1 _ => [r1]
  | .addlReg r1 _ => [r1]
  | .sublReg r1 _ => [r1]
  | .andMem r _ _ => [r]
  | .orMem r _ _ => [r]
  | .xorMem r _ _ => [r]
  | .andReg r1 _ => [r1]
  | .orReg r1 _ => [r1]
  | .xorReg r1 _ => [r1]
  | .cpaMem _ _ _ => []
  | .cplMem _ _ _ => []
  | .cpaReg _ _ => []
  | .cplReg _ _ => []
  | .sla r _ _ => [r]
  | .sra r _ _ => [r]
  | .sll r _ _ => [r]
  | .srl r _ _ => [r]
  | .jmi _ _ => []
  | .jnz _ _ => []
  | .jze _ _ => []
  | .jump _ _ => []
  | .jpl _ _ => []
  | .jov _ _ => []
  | .push _ _ => [spReg]
  | .pop r => [r, spReg]
  | .call _ _ => [spReg]
  | .ret => [spReg]
  | .svc _ _ => []

/-- R51: the addresses an instruction may write from a state: ST the word at EA, PUSH and CALL the word below GR7,
SVC 1 the IN buffer and the length word; nothing else writes memory. -/
def mayStoreAt (i : Instr) (s : State) (a : Nat) : Prop :=
  match i with
  | .st _ adr x => ∃ ea, effectiveAddress s adr x = .ok ea ∧ a = uns ea
  | .push _ _ => a + 1 = uns s.sp
  | .call _ _ => a + 1 = uns s.sp
  | .svc adr x => effectiveAddress s adr x = .ok 1 ∧
      ((uns (s.reg 1) ≤ a ∧ a < uns (s.reg 1) + s.params.inMaxLen) ∨ a = uns (s.reg 2))
  | .nop => False
  | .ldMem _ _ _ => False
  | .lad _ _ _ => False
  | .ldReg _ _ => False
  | .addaMem _ _ _ => False
  | .subaMem _ _ _ => False
  | .addlMem _ _ _ => False
  | .sublMem _ _ _ => False
  | .addaReg _ _ => False
  | .subaReg _ _ => False
  | .addlReg _ _ => False
  | .sublReg _ _ => False
  | .andMem _ _ _ => False
  | .orMem _ _ _ => False
  | .xorMem _ _ _ => False
  | .andReg _ _ => False
  | .orReg _ _ => False
  | .xorReg _ _ => False
  | .cpaMem _ _ _ => False
  | .cplMem _ _ _ => False
  | .cpaReg _ _ => False
  | .cplReg _ _ => False
  | .sla _ _ _ => False
  | .sra _ _ _ => False
  | .sll _ _ _ => False
  | .srl _ _ _ => False
  | .jmi _ _ => False
  | .jnz _ _ => False
  | .jze _ _ => False
  | .jump _ _ => False
  | .jpl _ _ => False
  | .jov _ _ => False
  | .pop _ => False
  | .ret => False

/-- `Stores s i a w`: completing from `s`, the instruction `i` leaves the word `w` at the address `a`. These are all the
writes of memory of R51 (ST, PUSH, CALL, SVC 1), but for the length word that the spec does not state (log 20). -/
inductive Stores (s : State) : Instr → Nat → Word → Prop where
  | st (r : Reg) (adr : Word) (x : Option Reg) (ea : Word) (h : effectiveAddress s adr x = .ok ea) :
      Stores s (.st r adr x) (uns ea) (s.reg r)
  | push (adr : Word) (x : Option Reg) (ea : Word) (h : effectiveAddress s adr x = .ok ea) (h0 : uns s.sp ≠ 0) :
      Stores s (.push adr x) (uns s.sp - 1) ea
  | call (adr : Word) (x : Option Reg) (back : Word) (h : uns back = s.pr + 2) (h0 : uns s.sp ≠ 0) :
      Stores s (.call adr x) (uns s.sp - 1) back
  | inBuffer (adr : Word) (x : Option Reg) (h : effectiveAddress s adr x = .ok 1) (line : Line) (rest : List Line)
      (hi : s.dev.input = line :: rest) (k : Nat) (hk : k < s.params.inMaxLen)
      (hl : uns (s.reg 1) + k ≠ uns (s.reg 2)) :
      Stores s (.svc adr x) (uns (s.reg 1) + k) (if k < line.length then line.getD k 0 else 0x0020)
  | inLength (adr : Word) (x : Option Reg) (h : effectiveAddress s adr x = .ok 1) (line : Line) (rest : List Line)
      (hi : s.dev.input = line :: rest) (n : Word) (hn : uns n = min line.length s.params.inMaxLen) :
      Stores s (.svc adr x) (uns (s.reg 2)) n

/-! ### The invariant -/

/-- What a recorded run-time error says of the state it was raised in, which the error left unchanged (R260, R263). -/
def ErrorExplained (s : State) : RunError → Prop
  | .memoryAccess a => memWords ≤ a
  | .stackFault sp .overflow => sp = s.sp ∧ sp = 0
  | .stackFault sp .underflow => sp = s.sp ∧ uns s.params.spInit ≤ uns sp
  | .illegalInstruction a w => a = s.pr ∧ a < memWords ∧ s.mem.read a = w
  | .stepLimitExceeded l => s.params.stepLimit = some l ∧ s.steps = l
  | .aborted => True
  | .endOfInput => s.dev.input = [] ∧ s.dev.atEnd = .endOfInput

/-- The invariant of the machine: memory in its canonical form, PR at most 65,536 (R25), no more instructions counted
than the step limit allows (R102), and a recorded error explained by the state. -/
structure State.Inv (s : State) : Prop where
  memory : s.mem.wf = true
  pr     : s.pr ≤ memWords
  steps  : ∀ l, s.params.stepLimit = some l → s.steps ≤ l
  error  : ∀ e, s.run = .haltedError e → ErrorExplained s e

/-- No abort at this fetch boundary and no step limit in the way (R101, R102): the step goes on to its fetch. -/
def ReachesFetch (s : State) : Prop :=
  s.run = .running ∧ abortAsserted s.host = false ∧ limitReached s = none

/-- The state at the fetch of a running engine: the abort signal has been sampled, nothing else has changed. -/
def State.afterSampling (s : State) : State := s.setHost (sampled s.host)

/-- R269: the same state with the run option `trace` set to `b`. -/
def State.withTrace (s : State) (b : Bool) : State := { s with params := { s.params with trace := b } }

/-- The same state with the step count set to `n`. -/
def State.withSteps (s : State) (n : Nat) : State := { s with steps := n }

/-- A result with its next state, if it has one, changed by `f`. -/
def mapNext (f : State → State) : Result → Result
  | .next s => .next (f s)
  | .fault r => .fault r
  | .refused r => .refused r

end Sys2Proof.Machine
end

