-- ==== Sys2Proof/Certificates/Slice0/Obligations.lean ====
section
/-! DEFINITION. The statements for the provers, grouped as the spec groups its rules. -/

open Sys2Proof Sys2Proof.Machine

/-! ### Encoding (30_encoding.md) -/

/-- R70 to R77, R80: every well-formed instruction, with every operand at every value its encoding admits, is what its
own words decode to, whatever words follow. Rests on the spec's own decisions D1, D2, D3, D4. -/
def Obligations.EncodedInstructionDecodesToItself : Prop :=
  ∀ (i : Instr) (rest : List Word), i.wf = true → decode (encode i ++ rest) = .ok (i, rest)

/-- R74, R75, R82: words that decode are the encoding of the instruction they decode to, which is well formed: no
instruction has a second spelling and no field is ignored. Rests on the spec's own decisions D1, D2, D3, D4, D18. -/
def Obligations.DecodedWordsAreTheEncoding : Prop :=
  ∀ (ws : List Word) (i : Instr) (rest : List Word),
    decode ws = .ok (i, rest) → i.wf = true ∧ ws = encode i ++ rest

/-- R81: word 1 spells an instruction exactly when it matches a row of the opcode table, `w1 & mask == match`. Rests
on the spec's own decisions D1, D3. -/
def Obligations.FirstWordIsLegalExactlyWhenARowMatches : Prop :=
  ∀ w : Word, (∃ h, decodeHead w = .ok h) ↔ ∃ row ∈ opcodeTable, row.matches w = true

/-- R81: at most one row matches any word. Rests on the spec's own decisions D1, D3. -/
def Obligations.AtMostOneRowMatchesAWord : Prop :=
  ∀ (w : Word) (row row' : Row), row ∈ opcodeTable → row' ∈ opcodeTable →
    row.matches w = true → row'.matches w = true → row = row'

/-- R80, 95_test_vectors.md 2.9: words written out from the opcode map decode to the instructions they stand for.
Rests on the spec's own decisions D1, D2. -/
def Obligations.SpecWordsDecode : Prop :=
  decode [0x0000] = .ok (.nop, []) ∧
  decode [0x1010, 0x000A] = .ok (.ldMem 1 0x000A none, []) ∧
  decode [0x1412] = .ok (.ldReg 1 2, []) ∧
  decode [0x2012, 0x0010] = .ok (.addaMem 1 0x0010 (some 2), []) ∧
  decode [0x3644] = .ok (.xorReg 4 4, []) ∧
  decode [0x5212, 0x0001] = .ok (.sll 1 0x0001 (some 2), []) ∧
  decode [0x6401, 0x0000] = .ok (.jump 0x0000 (some 1), []) ∧
  decode [0x7120] = .ok (.pop 2, []) ∧
  decode [0xF000, 0x0001] = .ok (.svc 0x0001 none, [])

/-! ### The cycle (40_execution_cycle.md, 60_exceptions.md) -/

/-- R104 to R106, R110: when the words at PR decode to `i` and the step reaches its fetch, the step is `exec i` on the
state whose abort signal has been sampled. The step adds nothing else around `exec`. The last word of memory may hold
a 1-word instruction. Rests on the spec's own decisions D21, D23, D24. -/
def Obligations.StepRunsTheDecodedInstruction : Prop :=
  ∀ (s : State) (i : Instr) (rest : List Word), ReachesFetch s → s.pr + i.words ≤ memWords →
    decode [s.mem.read s.pr, s.mem.read (s.pr + 1)] = .ok (i, rest) →
    step s = exec i s.afterSampling

/-- R101, R264: an abort at the fetch boundary comes before everything else, whatever the step limit, PR and the words
there, and leaves the CPU state and STEPS as they are. Rests on the spec's own decisions D20, D24. -/
def Obligations.AbortIsTakenBeforeEverything : Prop :=
  ∀ s : State, s.run = .running → abortAsserted s.host = true →
    TrapsWith s.afterSampling (step s) .aborted

/-- R102, R264: with no abort, a limit L that STEPS has reached stops the step before its fetch. Rests on the spec's
own decisions D20, D23, D24. -/
def Obligations.StepLimitStopsBeforeTheFetch : Prop :=
  ∀ (s : State) (l : Nat), s.run = .running → abortAsserted s.host = false →
    s.params.stepLimit = some l → l ≤ s.steps →
    TrapsWith s.afterSampling (step s) (.stepLimitExceeded l)

/-- R27, R103, R105: PR does not wrap. A fetch with PR = 65,536, and the fetch of the second word of a 2-word
instruction whose first word is the last word of memory, raise MemoryAccessError(65,536). Rests on the spec's own
decisions D7, D20. -/
def Obligations.FetchPastTheTopRaisesMemoryAccess : Prop :=
  ∀ s : State, ReachesFetch s →
    (s.pr = 65536 → TrapsWith s.afterSampling (step s) (.memoryAccess 65536)) ∧
    (s.pr = 65535 → (∃ i, decodeHead (s.mem.read 65535) = .ok (.needsAdr i)) →
      TrapsWith s.afterSampling (step s) (.memoryAccess 65536))

/-- R81, R104: a first word that matches no row of the opcode table raises IllegalInstructionError with PR and the
word, at 0xFFFF too, where no second word could be fetched. Rests on the spec's own decisions D1, D3, D20, D21. -/
def Obligations.IllegalFirstWordRaisesIllegalInstruction : Prop :=
  ∀ s : State, ReachesFetch s → s.pr < memWords →
    (∀ row ∈ opcodeTable, row.matches (s.mem.read s.pr) = false) →
    TrapsWith s.afterSampling (step s) (.illegalInstruction s.pr (s.mem.read s.pr))

/-- R107, R263: run-time errors are precise. A step that ends in Halted(error e) is the state it began in with the run
state changed and the abort signal sampled, and nothing else. Rests on the spec's own decision D20. -/
def Obligations.FailedStepChangesOnlyTheRunState : Prop :=
  ∀ (s t : State) (e : RunError), s.run = .running → step s = .next t → t.run = .haltedError e →
    t = s.afterSampling.trap e

/-- R33, R108, R109: a step that does not fail counts one instruction, leaves the engine Running or in Halted(normal),
and leaves the launch parameters and the host's inputs alone. Rests on the spec's own decisions D13, D23. -/
def Obligations.CompletedStepCountsOneInstruction : Prop :=
  ∀ s t : State, s.run = .running → step s = .next t → (∀ e, t.run ≠ .haltedError e) →
    t.steps = s.steps + 1 ∧ (t.run = .running ∨ t.run = .haltedNormal) ∧
      t.params = s.params ∧ t.host = sampled s.host

/-- R26, R108: an instruction that completes moves PR by its length, but for the jumps, CALL and RET, which either
fall through by 2 words or set PR to a 16-bit address. Rests on the spec's own decision D23. -/
def Obligations.PrMovesByTheLengthUnlessControlTransfers : Prop :=
  ∀ (i : Instr) (s t : State), s.run = .running → exec i s = .next t → (∀ e, t.run ≠ .haltedError e) →
    (transfersControl i = false → t.pr = s.pr + i.words) ∧
      (transfersControl i = true → t.pr = s.pr + 2 ∨ t.pr < memWords)

/-- R232: the halt is the only way a run ends normally: a step into Halted(normal) ran an SVC whose effective address
is 0, moved PR past it, counted it, and changed no register, flag or memory. Rests on the spec's own decision D13. -/
def Obligations.NormalHaltComesOnlyFromServiceZero : Prop :=
  ∀ s t : State, s.run = .running → step s = .next t → t.run = .haltedNormal →
    ∃ adr x, fetch s = .ok (.svc adr x) ∧ effectiveAddress s adr x = .ok 0 ∧
      t.pr = s.pr + 2 ∧ t.steps = s.steps + 1 ∧ t.gr = s.gr ∧ t.fr = s.fr ∧ t.mem = s.mem ∧ t.dev = s.dev

/-- R267, R260: every instruction runs in every state: `exec` answers a next state, but for an SVC 1 whose buffer fits
and whose device never answers, which waits. Nothing is refused. Rests on the spec's own decisions D14, D17. -/
def Obligations.EveryInstructionRunsButAWaitingIn : Prop :=
  ∀ (i : Instr) (s : State), (∃ t, exec i s = .next t) ∨
    (exec i s = .fault .waitingForDevice ∧ ∃ adr x, i = .svc adr x ∧ effectiveAddress s adr x = .ok 1 ∧
      uns (s.reg 1) + s.params.inMaxLen ≤ memWords ∧ s.dev.input = [] ∧ s.dev.atEnd = .noAnswer)

/-- The invariant of the machine is kept by every step, the host's calls included: memory stays in its canonical form,
PR stays at most 65,536 (R25), STEPS stays within the limit (R102), and a recorded error says what R260 says of the
state it was raised in. Rests on the spec's own decisions D7, D20, D23. -/
def Obligations.EveryStepKeepsTheInvariant : Prop :=
  ∀ s t : State, s.Inv → step s = .next t → t.Inv

/-- The invariant holds after reset. The values of reset that the spec leaves open are the model's choice (log 3 to 7,
9 to 11). Rests on the spec's own decisions D11, D22. -/
def Obligations.ResetMeetsTheInvariant : Prop := State.reset.Inv

/-- R112: with a step limit L a running engine leaves Running within L + 1 - STEPS steps, unless it waits for ever in
an IN. Rests on the spec's own decisions D23, D24. -/
def Obligations.RunEndsWithinTheStepLimit : Prop :=
  ∀ (s : State) (l : Nat), s.run = .running → s.params.stepLimit = some l → s.steps ≤ l →
    ∃ k ≤ l + 1 - s.steps,
      (∃ t : State, Host.Core.run core k s = .next t ∧ t.run ≠ .running) ∨
        Host.Core.run core k s = .fault Fault.waitingForDevice

/-- R269: the run option `trace` has no effect on any state or rule: a running engine steps as it would with the
option set either way. Rests on the spec's own decision D28. -/
def Obligations.TraceHasNoEffect : Prop :=
  ∀ (s : State) (b : Bool), s.run = .running →
    step (s.withTrace b) = mapNext (fun t => t.withTrace b) (step s)

/-! ### Start, load, reset (70_reset_and_hazards.md) -/

/-- R293, R100: a pending `start()` moves Ready to Running and does nothing in a Halted state; nothing else changes.
The list of pending calls is the model's (log 9). Rests on the spec's own decision D31. -/
def Obligations.StartMovesReadyToRunning : Prop :=
  ∀ (s : State) (cs : List HostCall), s.host.calls = .start :: cs → s.run ≠ .running →
    step s = .next { s with
      run := if s.run = .ready then .running else s.run
      host := { s.host with calls := cs } }

/-- R100: with no call from the host pending there is no step in Ready and none in a Halted state. Rests on the spec's
own decision D31. -/
def Obligations.NoStepOutsideRunningWithoutAHostCall : Prop :=
  ∀ s : State, s.host.calls = [] →
    (s.run = .ready → step s = .fault .notStarted) ∧
    (s.run = .haltedNormal → step s = .fault .halted) ∧
    (∀ e, s.run = .haltedError e → step s = .fault .halted)

/-- R265, R294: only a load leaves a Halted state. -/
def Obligations.OnlyALoadLeavesAHaltedState : Prop :=
  ∀ s t : State, (s.run = .haltedNormal ∨ ∃ e, s.run = .haltedError e) → step s = .next t → t.run ≠ s.run →
    ∃ args cs, s.host.calls = .load args :: cs ∧ t.run = .ready ∧ t.pr = uns args.entry ∧ t.steps = 0

/-- R36, R290, R291, R294: a load that fits replaces the whole engine state and leaves the device and the model's
counter of draws (log 20) as they are. Memory holds the image's words verbatim from LOAD_BASE on, and MEM_RESET at
every other address and at every `reserved` entry. Rests on the spec's own decisions D11, D22, D25. -/
def Obligations.LoadSetsTheWholeState : Prop :=
  ∀ (s : State) (args : LoadArgs) (cs : List HostCall), s.host.calls = .load args :: cs → s.run ≠ .running →
    uns args.loadBase + args.image.length ≤ memWords →
    ∃ t, step s = .next t ∧ t.run = .ready ∧ t.pr = uns args.entry ∧ t.steps = 0 ∧
      t.reg spReg = args.params.spInit ∧ (∀ k : Fin 7, t.reg k.castSucc = args.grReset[k]) ∧
      t.fr = args.frReset ∧ t.params = args.params ∧ t.dev = s.dev ∧ t.host = { s.host with calls := cs } ∧
      t.draws = s.draws ∧
      (∀ (k : Nat) (w : Word), args.image[k]? = some (.word w) → t.mem.read (uns args.loadBase + k) = w) ∧
      (∀ a : Nat, (∀ (k : Nat) (w : Word), a = uns args.loadBase + k → args.image[k]? ≠ some (.word w)) →
        t.mem.read a = (Memory.ofCells [] args.memReset).read a)

/-- R36, D22: MEM_RESET may be any assignment of words to the 65,536 addresses: every one of them is the MEM_RESET of
some load, although the model's memory lists only the words that differ from 0 (log 7, log 17). Rests on the spec's
own decision D22. -/
def Obligations.EveryMemResetIsSomeLoads : Prop :=
  ∀ f : Nat → Word, ∃ cells : List (Nat × Word),
    ∀ a : Nat, a < memWords → (Memory.ofCells [] cells).read a = f a

/-- R292: a load whose image does not fit is refused, and there is no state. Rests on the spec's own decision D25. -/
def Obligations.OversizeLoadIsRefused : Prop :=
  ∀ (s : State) (args : LoadArgs) (cs : List HostCall), s.host.calls = .load args :: cs → s.run ≠ .running →
    memWords < uns args.loadBase + args.image.length → step s = .refused .imageDoesNotFit

/-! ### What instructions write (10_state.md R24, R30; 20_memory.md R51, R55) -/

/-- R30: LD, ST, LAD, PUSH, POP, CALL, RET, the jumps, NOP and SVC leave all three flags unchanged. Rests on the
spec's own decision D19. -/
def Obligations.OnlyFlagWritersChangeFlags : Prop :=
  ∀ (i : Instr) (s t : State), writesFlags i = false → exec i s = .next t → t.fr = s.fr

/-- R24: an instruction changes no general register but those the rule lists for it. -/
def Obligations.OnlyListedRegistersChange : Prop :=
  ∀ (i : Instr) (s t : State), exec i s = .next t → RegsKeptExcept (writtenRegs i) s t

/-- R51: an instruction changes no word of memory but those the rule lists for it. -/
def Obligations.OnlyListedWordsOfMemoryChange : Prop :=
  ∀ (i : Instr) (s t : State), s.mem.wf = true → exec i s = .next t → MemKeptOutside (mayStoreAt i s) s t

/-- R55, R273: the I/O device, and the model's counter of draws (log 20), are reached only through SVC; no instruction
changes the launch parameters or the host's inputs. -/
def Obligations.OnlySvcReachesTheDevice : Prop :=
  ∀ (i : Instr) (s t : State), exec i s = .next t →
    ((∀ adr x, i ≠ .svc adr x) → t.dev = s.dev ∧ t.draws = s.draws) ∧ t.params = s.params ∧ t.host = s.host

/-! ### Results and flags (41_arithmetic.md, 42_logical.md, 43_shift.md, 44_compare.md) -/

/-- R120: signed add. OF is also 1 exactly when the operands agree in bit 15 and the result does not. -/
def Obligations.SignedAddResultAndFlags : Prop :=
  ∀ a b : Word,
    (addA a b).res = trunc16 (sgn a + sgn b) ∧
    ((addA a b).fr.OF = true ↔ sgn a + sgn b < -32768 ∨ 32767 < sgn a + sgn b) ∧
    ((addA a b).fr.OF = true ↔
      a.getLsbD 15 = b.getLsbD 15 ∧ (addA a b).res.getLsbD 15 ≠ a.getLsbD 15) ∧
    (addA a b).fr.SF = (addA a b).res.getLsbD 15 ∧
    ((addA a b).fr.ZF = true ↔ (addA a b).res = 0)

/-- R122: signed subtract. OF is also 1 exactly when the operands differ in bit 15 and the result differs from the
first in it. -/
def Obligations.SignedSubtractResultAndFlags : Prop :=
  ∀ a b : Word,
    (subA a b).res = trunc16 (sgn a - sgn b) ∧
    ((subA a b).fr.OF = true ↔ sgn a - sgn b < -32768 ∨ 32767 < sgn a - sgn b) ∧
    ((subA a b).fr.OF = true ↔
      a.getLsbD 15 ≠ b.getLsbD 15 ∧ (subA a b).res.getLsbD 15 ≠ a.getLsbD 15) ∧
    (subA a b).fr.SF = (subA a b).res.getLsbD 15 ∧
    ((subA a b).fr.ZF = true ↔ (subA a b).res = 0)

/-- R121, R123: unsigned add and subtract wrap modulo 65,536; OF is the carry or the borrow under the policy `carry`
and 0 under `never`. -/
def Obligations.UnsignedAddAndSubtractResultAndFlags : Prop :=
  ∀ (p : UnsignedOfPolicy) (a b : Word),
    uns (addL p a b).res = (uns a + uns b) % 65536 ∧
    ((addL p a b).fr.OF = true ↔ p = .carry ∧ 65535 < uns a + uns b) ∧
    (addL p a b).fr.SF = (addL p a b).res.getLsbD 15 ∧
    ((addL p a b).fr.ZF = true ↔ (addL p a b).res = 0) ∧
    ((uns (subL p a b).res : Int) = ((uns a : Int) - uns b) % 65536) ∧
    ((subL p a b).fr.OF = true ↔ p = .carry ∧ uns a < uns b) ∧
    (subL p a b).fr.SF = (subL p a b).res.getLsbD 15 ∧
    ((subL p a b).fr.ZF = true ↔ (subL p a b).res = 0)

/-- R166: after CPA, equal exactly when ZF = 1 and less exactly when SF ≠ OF; after CPL, equal exactly when ZF = 1,
less exactly when OF = 1 under `carry`, and SF = 1 says less where the operands differ by less than 32,768. -/
def Obligations.CompareFlagsOrderTheOperands : Prop :=
  ∀ (p : UnsignedOfPolicy) (a b : Word),
    ((cmpA a b).ZF = true ↔ a = b) ∧
    (sgn a < sgn b ↔ (cmpA a b).SF ≠ (cmpA a b).OF) ∧
    ((cmpL p a b).ZF = true ↔ a = b) ∧
    (p = .carry → (uns a < uns b ↔ (cmpL p a b).OF = true)) ∧
    (uns a < uns b + 32768 → uns b < uns a + 32768 → (uns a < uns b ↔ (cmpL p a b).SF = true))

/-- R151 to R154: the shifts bit by bit, for every count: bit 15 kept by SLA and its lower bits moved up, copies of
bit 15 entering in SRA, zeros entering in SLL and SRL. Rests on the spec's own decision D9. -/
def Obligations.ShiftsBitByBit : Prop :=
  ∀ (a : Word) (n k : Nat), k < 16 →
    (shiftLeftA a n).getLsbD k =
      (if k = 15 then a.getLsbD 15 else decide (n ≤ k) && a.getLsbD (k - n)) ∧
    (shiftRightA a n).getLsbD k = (if k + n < 16 then a.getLsbD (k + n) else a.getLsbD 15) ∧
    (shiftLeftL a n).getLsbD k = (decide (n ≤ k) && a.getLsbD (k - n)) ∧
    (shiftRightL a n).getLsbD k = a.getLsbD (k + n)

/-! ### Addressing and memory access (20_memory.md R52, 30_encoding.md R78) -/

/-- R78: the sum of `adr` and the index register as unsigned numbers is the effective address where it is below
65,536; above, it raises MemoryAccessError(sum) under `fault` and is reduced by 65,536 under `wrap`. The sum with GR0
as the index register is the model's own choice (log 22): no word spells it. Rests on the spec's own decisions D4, D5.
-/
def Obligations.EffectiveAddressIsTheTestedSum : Prop :=
  ∀ (s : State) (adr : Word) (x : Option Reg) (sum : Nat),
    (x = none ∧ sum = uns adr) ∨ (∃ r, x = some r ∧ sum = uns adr + uns (s.reg r)) →
    sum ≤ 131070 ∧
    (sum < 65536 → ∃ ea, effectiveAddress s adr x = .ok ea ∧ uns ea = sum) ∧
    (65536 ≤ sum → s.params.eaPolicy = .fault → effectiveAddress s adr x = .error (.memoryAccess sum)) ∧
    (65536 ≤ sum → s.params.eaPolicy = .wrap →
      ∃ ea, effectiveAddress s adr x = .ok ea ∧ uns ea = sum - 65536)

/-- R78: under `fault` the test stops every instruction of the formats RA and A, before any other effect and whatever
the instruction would do with the address. The case of GR0 as the index register is the model's own choice (log 22):
no word spells it. Rests on the spec's own decisions D5, D20. -/
def Obligations.EffectiveAddressErrorStopsEveryAddressForm : Prop :=
  ∀ (i : Instr) (s : State) (adr : Word) (x : Option Reg), i.addressOperand = some (adr, x) →
    memWords ≤ eaSum s adr x → s.params.eaPolicy = .fault →
    TrapsWith s (exec i s) (.memoryAccess (eaSum s adr x))

/-- R52: every read and write is bounds-checked. Rests on the spec's own decisions D5, D7. -/
def Obligations.EveryAccessIsBoundsChecked : Prop :=
  ∀ (s : State) (a : Nat) (v : Word),
    (65536 ≤ a → memRead s a = .error (.memoryAccess a) ∧ memWrite s a v = .error (.memoryAccess a)) ∧
    (a < 65536 → memRead s a = .ok (s.mem.read a) ∧ memWrite s a v = .ok (s.setMem (s.mem.write a v)))

/-! ### Load and store (47_load_store.md) -/

/-- R211, R212, R214: LD from memory, LAD and LD from a register complete, write their register and no flag. Rests on
the spec's own decision D6. -/
def Obligations.LoadsWriteTheirRegister : Prop :=
  (∀ (s : State) (r : Reg) (adr : Word) (x : Option Reg) (ea : Word), effectiveAddress s adr x = .ok ea →
    WritesReg s (exec (.ldMem r adr x) s) r (s.mem.read (uns ea)) s.fr 2 ∧
    WritesReg s (exec (.lad r adr x) s) r ea s.fr 2) ∧
  (∀ (s : State) (r1 r2 : Reg), WritesReg s (exec (.ldReg r1 r2) s) r1 (s.reg r2) s.fr 1)

/-- R213: ST completes and writes GR[r] at EA, and nothing else. -/
def Obligations.StoreWritesTheWordAtEa : Prop :=
  ∀ (s : State) (r : Reg) (adr : Word) (x : Option Reg) (ea : Word), s.mem.wf = true →
    effectiveAddress s adr x = .ok ea →
    ∃ t, exec (.st r adr x) s = .next t ∧ t.mem.read (uns ea) = s.reg r ∧
      MemKeptOutside (fun a => a = uns ea) s t ∧ RegsKeptExcept [] s t ∧ t.fr = s.fr ∧ t.pr = s.pr + 2 ∧
      Continues s t

/-- R61, R298: a word that ST, PUSH, CALL or an IN stored is what every later fetch of it sees, while it stands there.
As a first word it is decoded, into a 1-word instruction, into a 2-word instruction with the word after it as its
address (at 0xFFFF the fetch of that word raises MemoryAccessError), or as no instruction, which raises
IllegalInstructionError; as a second word it is the address. The length word that the spec does not state (log 20) is
not among the stored words. Rests on the spec's own decision D29. -/
def Obligations.StoredInstructionIsFetched : Prop :=
  ∀ (s t u : State) (i : Instr) (a : Nat) (w : Word), s.mem.wf = true → Stores s i a w →
    exec i s = .next t → t.steps = s.steps + 1 → u.mem.read a = t.mem.read a →
    t.mem.read a = w ∧
    (u.pr = a →
      (∀ j, decodeHead w = .ok (.whole j) → fetch u = .ok j) ∧
      (∀ f, decodeHead w = .ok (.needsAdr f) → a ≠ 65535 → fetch u = .ok (f (u.mem.read (a + 1)))) ∧
      (∀ f, decodeHead w = .ok (.needsAdr f) → a = 65535 → fetch u = .error (.memoryAccess 65536)) ∧
      (∀ e, decodeHead w = .error e → fetch u = .error (.illegalInstruction a w))) ∧
    (u.pr + 1 = a → ∀ f, decodeHead (u.mem.read u.pr) = .ok (.needsAdr f) → fetch u = .ok (f w))

/-! ### Arithmetic, logical, compare, shift -/

/-- R125, R127, R129, R131: ADDA and SUBA complete in both forms, write their register and the flags of `addA` and
`subA`, and nothing else. -/
def Obligations.SignedArithmeticCompletes : Prop :=
  (∀ (s : State) (r : Reg) (adr : Word) (x : Option Reg) (ea v : Word), effectiveAddress s adr x = .ok ea →
    v = s.mem.read (uns ea) →
    WritesReg s (exec (.addaMem r adr x) s) r (addA (s.reg r) v).res (addA (s.reg r) v).fr 2 ∧
    WritesReg s (exec (.subaMem r adr x) s) r (subA (s.reg r) v).res (subA (s.reg r) v).fr 2) ∧
  (∀ (s : State) (r1 r2 : Reg) (a b : Word), a = s.reg r1 → b = s.reg r2 →
    WritesReg s (exec (.addaReg r1 r2) s) r1 (addA a b).res (addA a b).fr 1 ∧
    WritesReg s (exec (.subaReg r1 r2) s) r1 (subA a b).res (subA a b).fr 1)

/-- R126, R128, R130, R132: ADDL and SUBL complete in both forms, write their register and the flags of `addL` and
`subL`, and nothing else. -/
def Obligations.UnsignedArithmeticCompletes : Prop :=
  (∀ (s : State) (r : Reg) (adr : Word) (x : Option Reg) (ea v : Word) (p : UnsignedOfPolicy),
    effectiveAddress s adr x = .ok ea → v = s.mem.read (uns ea) → p = s.params.unsignedOf →
    WritesReg s (exec (.addlMem r adr x) s) r (addL p (s.reg r) v).res (addL p (s.reg r) v).fr 2 ∧
    WritesReg s (exec (.sublMem r adr x) s) r (subL p (s.reg r) v).res (subL p (s.reg r) v).fr 2) ∧
  (∀ (s : State) (r1 r2 : Reg) (a b : Word) (p : UnsignedOfPolicy), a = s.reg r1 → b = s.reg r2 →
    p = s.params.unsignedOf →
    WritesReg s (exec (.addlReg r1 r2) s) r1 (addL p a b).res (addL p a b).fr 1 ∧
    WritesReg s (exec (.sublReg r1 r2) s) r1 (subL p a b).res (subL p a b).fr 1)

/-- R140 to R146: AND, OR and XOR complete in both forms, write their register, clear OF and set SF and ZF from the
result, and change nothing else. -/
def Obligations.LogicalOperationsComplete : Prop :=
  (∀ res : Word, (logical res).fr.OF = false ∧ (logical res).fr.SF = res.getLsbD 15 ∧
    ((logical res).fr.ZF = true ↔ res = 0)) ∧
  (∀ (s : State) (r : Reg) (adr : Word) (x : Option Reg) (ea v : Word), effectiveAddress s adr x = .ok ea →
    v = s.mem.read (uns ea) →
    WritesReg s (exec (.andMem r adr x) s) r (s.reg r &&& v) (logical (s.reg r &&& v)).fr 2 ∧
    WritesReg s (exec (.orMem r adr x) s) r (s.reg r ||| v) (logical (s.reg r ||| v)).fr 2 ∧
    WritesReg s (exec (.xorMem r adr x) s) r (s.reg r ^^^ v) (logical (s.reg r ^^^ v)).fr 2) ∧
  (∀ (s : State) (r1 r2 : Reg) (a b : Word), a = s.reg r1 → b = s.reg r2 →
    WritesReg s (exec (.andReg r1 r2) s) r1 (a &&& b) (logical (a &&& b)).fr 1 ∧
    WritesReg s (exec (.orReg r1 r2) s) r1 (a ||| b) (logical (a ||| b)).fr 1 ∧
    WritesReg s (exec (.xorReg r1 r2) s) r1 (a ^^^ b) (logical (a ^^^ b)).fr 1)

/-- R160 to R165: CPA and CPL complete in both forms, set the flags of the subtraction and change nothing else. -/
def Obligations.ComparesCompleteAndSetFlagsOnly : Prop :=
  (∀ (s : State) (r : Reg) (adr : Word) (x : Option Reg) (ea v : Word), effectiveAddress s adr x = .ok ea →
    v = s.mem.read (uns ea) →
    WritesNoReg s (exec (.cpaMem r adr x) s) (subA (s.reg r) v).fr (s.pr + 2) ∧
    WritesNoReg s (exec (.cplMem r adr x) s) (subL s.params.unsignedOf (s.reg r) v).fr (s.pr + 2)) ∧
  (∀ (s : State) (r1 r2 : Reg),
    WritesNoReg s (exec (.cpaReg r1 r2) s) (subA (s.reg r1) (s.reg r2)).fr (s.pr + 1) ∧
    WritesNoReg s (exec (.cplReg r1 r2) s) (subL s.params.unsignedOf (s.reg r1) (s.reg r2)).fr (s.pr + 1))

/-- R150 to R154: the shifts complete by the count EA, write their register, clear OF and set SF and ZF from the
result, and change nothing else. A count of 0 sets the flags too. Rests on the spec's own decision D9. -/
def Obligations.ShiftsComplete : Prop :=
  ∀ (s : State) (r : Reg) (adr : Word) (x : Option Reg) (n : Word), effectiveAddress s adr x = .ok n →
    WritesReg s (exec (.sla r adr x) s) r (shiftLeftA (s.reg r) (uns n))
      (logical (shiftLeftA (s.reg r) (uns n))).fr 2 ∧
    WritesReg s (exec (.sra r adr x) s) r (shiftRightA (s.reg r) (uns n))
      (logical (shiftRightA (s.reg r) (uns n))).fr 2 ∧
    WritesReg s (exec (.sll r adr x) s) r (shiftLeftL (s.reg r) (uns n))
      (logical (shiftLeftL (s.reg r) (uns n))).fr 2 ∧
    WritesReg s (exec (.srl r adr x) s) r (shiftRightL (s.reg r) (uns n))
      (logical (shiftRightL (s.reg r) (uns n))).fr 2

/-! ### Jumps (45_branch.md) -/

/-- R170 to R177: each jump completes; it goes to EA when its condition holds and to PR + 2 otherwise, and changes
nothing else. Rests on the spec's own decisions D5, D10. -/
def Obligations.JumpsFollowTheirConditions : Prop :=
  ∀ (s : State) (adr : Word) (x : Option Reg) (ea : Word), effectiveAddress s adr x = .ok ea →
    WritesNoReg s (exec (.jmi adr x) s) s.fr (if s.fr.SF = true then uns ea else s.pr + 2) ∧
    WritesNoReg s (exec (.jnz adr x) s) s.fr (if s.fr.ZF = false then uns ea else s.pr + 2) ∧
    WritesNoReg s (exec (.jze adr x) s) s.fr (if s.fr.ZF = true then uns ea else s.pr + 2) ∧
    WritesNoReg s (exec (.jump adr x) s) s.fr (uns ea) ∧
    WritesNoReg s (exec (.jpl adr x) s) s.fr
      (if s.fr.SF = false ∧ s.fr.ZF = false then uns ea else s.pr + 2) ∧
    WritesNoReg s (exec (.jov adr x) s) s.fr (if s.fr.OF = true then uns ea else s.pr + 2)

/-! ### Stack, call and return (46_call_stack.md) -/

/-- R191, R193: PUSH with GR7 ≥ 1 completes: EA is stored at GR7 - 1, GR7 is one less, nothing else changes. Rests on
the spec's own decisions D11, D12. -/
def Obligations.PushStoresTheEffectiveAddress : Prop :=
  ∀ (s : State) (adr : Word) (x : Option Reg) (ea : Word), s.mem.wf = true →
    effectiveAddress s adr x = .ok ea → uns s.sp ≠ 0 →
    ∃ t, exec (.push adr x) s = .next t ∧ uns t.sp = uns s.sp - 1 ∧ t.mem.read (uns s.sp - 1) = ea ∧
      MemKeptOutside (fun a => a = uns s.sp - 1) s t ∧ RegsKeptExcept [spReg] s t ∧ t.fr = s.fr ∧
      t.pr = s.pr + 2 ∧ Continues s t

/-- R192, R194: POP below the ceiling completes: GR[r] gets the word at GR7, GR7 is one more unless r is GR7, where
the popped word wins, and nothing else changes. Rests on the spec's own decisions D11, D12. -/
def Obligations.PopLoadsTheTopOfTheStack : Prop :=
  ∀ (s : State) (r : Reg), uns s.sp < uns s.params.spInit →
    ∃ t, exec (.pop r) s = .next t ∧ t.reg r = s.mem.read (uns s.sp) ∧
      (r ≠ spReg → uns t.sp = uns s.sp + 1) ∧ RegsKeptExcept [r, spReg] s t ∧ MemKept s t ∧ t.fr = s.fr ∧
      t.pr = s.pr + 1 ∧ Continues s t

/-- R195: CALL at 0xFFFD or below with GR7 ≥ 1 completes: the return address PR + 2 is stored at GR7 - 1, GR7 is one
less, PR is EA computed from the registers before the push, nothing else changes. Rests on the spec's own decisions
D7, D11. -/
def Obligations.CallPushesTheReturnAddress : Prop :=
  ∀ (s : State) (adr : Word) (x : Option Reg) (ea : Word), s.mem.wf = true →
    effectiveAddress s adr x = .ok ea → s.pr + 2 < memWords → uns s.sp ≠ 0 →
    ∃ t, exec (.call adr x) s = .next t ∧ t.pr = uns ea ∧ uns t.sp = uns s.sp - 1 ∧
      uns (t.mem.read (uns s.sp - 1)) = s.pr + 2 ∧
      MemKeptOutside (fun a => a = uns s.sp - 1) s t ∧ RegsKeptExcept [spReg] s t ∧ t.fr = s.fr ∧
      Continues s t

/-- R196: RET below the ceiling completes: PR gets the word at GR7, GR7 is one more, nothing else changes. Rests on
the spec's own decision D11. -/
def Obligations.RetPopsThePr : Prop :=
  ∀ s : State, uns s.sp < uns s.params.spInit →
    ∃ t, exec .ret s = .next t ∧ t.pr = uns (s.mem.read (uns s.sp)) ∧ uns t.sp = uns s.sp + 1 ∧
      RegsKeptExcept [spReg] s t ∧ MemKept s t ∧ t.fr = s.fr ∧ Continues s t

/-- R191, R193, R195: with GR7 = 0 a PUSH, and a CALL that has a return address, raise StackFaultError(0, overflow); a
CALL at 0xFFFE raises MemoryAccessError(65,536) whatever GR7 holds. Each comes after the effective-address test. Rests
on the spec's own decisions D7, D11, D20. -/
def Obligations.PushAndCallFaultInTheirOrder : Prop :=
  ∀ (s : State) (adr : Word) (x : Option Reg) (ea : Word), effectiveAddress s adr x = .ok ea →
    (uns s.sp = 0 → TrapsWith s (exec (.push adr x) s) (.stackFault 0 .overflow)) ∧
    (uns s.sp = 0 → s.pr + 2 < memWords → TrapsWith s (exec (.call adr x) s) (.stackFault 0 .overflow)) ∧
    (s.pr = 0xFFFE → TrapsWith s (exec (.call adr x) s) (.memoryAccess 65536))

/-- R192, R194, R196: POP and RET with GR7 at or above the ceiling raise StackFaultError(GR7, underflow); RET from the
main program does not halt. Rests on the spec's own decisions D11, D20. -/
def Obligations.PopAndRetFaultAtTheCeiling : Prop :=
  ∀ (s : State) (r : Reg), uns s.params.spInit ≤ uns s.sp →
    TrapsWith s (exec (.pop r) s) (.stackFault s.sp .underflow) ∧
    TrapsWith s (exec .ret s) (.stackFault s.sp .underflow)

/-- R197: a CALL and a later RET, in any state whose GR7, stack word and ceiling are as the CALL left them: PR is the
instruction after the CALL and GR7 is what it was before it. Rests on the spec's own decisions D7, D11. -/
def Obligations.CallThenRetReturns : Prop :=
  ∀ (s t u : State) (adr : Word) (x : Option Reg) (ea : Word), s.mem.wf = true →
    effectiveAddress s adr x = .ok ea → s.pr + 2 < memWords → uns s.sp ≠ 0 →
    uns s.sp ≤ uns s.params.spInit → exec (.call adr x) s = .next t →
    u.sp = t.sp → u.mem.read (uns t.sp) = t.mem.read (uns t.sp) → u.params = t.params →
    ∃ v, exec .ret u = .next v ∧ v.pr = s.pr + 2 ∧ v.sp = s.sp ∧ RegsKeptExcept [spReg] u v ∧ MemKept u v

/-! ### No-operation, supervisor call and I/O (48_system_io.md) -/

/-- R230: NOP completes and moves PR by one word; nothing else changes. Rests on the spec's own decision D1. -/
def Obligations.NopMovesPrOnly : Prop :=
  ∀ s : State, WritesNoReg s (exec .nop s) s.fr (s.pr + 1)

/-- R109, R232: SVC 0 completes like any instruction and then the run state is Halted(normal); flags, registers and
memory are unchanged. Rests on the spec's own decision D13. -/
def Obligations.SvcZeroHaltsNormally : Prop :=
  ∀ (s : State) (adr : Word) (x : Option Reg), effectiveAddress s adr x = .ok 0 →
    ∃ t, exec (.svc adr x) s = .next t ∧ t.run = .haltedNormal ∧ t.pr = s.pr + 2 ∧ t.steps = s.steps + 1 ∧
      RegsKeptExcept [] s t ∧ t.fr = s.fr ∧ MemKept s t ∧ t.params = s.params ∧ t.host = s.host ∧ t.dev = s.dev ∧
      t.draws = s.draws

/-- R233: SVC 1 with a buffer that fits and a line to read completes: the buffer holds the first IN_MAX_LEN codes of
the line, padded with 0x0020, the length word holds how many were stored, also where it lies inside the buffer, and no
other word, register or flag changes. A count of 65,536 is no 16-bit value, and nothing is said of the length word
then (log 20). Rests on the spec's own decisions D15, D17, D30. -/
def Obligations.SvcOneReadsALine : Prop :=
  ∀ (s : State) (adr : Word) (x : Option Reg) (line : Line) (rest : List Line) (buf lenp m : Nat),
    s.mem.wf = true → effectiveAddress s adr x = .ok 1 →
    buf = uns (s.reg 1) → lenp = uns (s.reg 2) → m = s.params.inMaxLen →
    buf + m ≤ 65536 → s.dev.input = line :: rest →
    ∃ t, exec (.svc adr x) s = .next t ∧ t.run = s.run ∧ t.pr = s.pr + 2 ∧ t.steps = s.steps + 1 ∧
      RegsKeptExcept [] s t ∧ t.fr = s.fr ∧ t.params = s.params ∧ t.host = s.host ∧
      t.dev = { s.dev with input := rest } ∧
      (min line.length m < 65536 → uns (t.mem.read lenp) = min line.length m) ∧
      (∀ k : Nat, k < m → buf + k ≠ lenp →
        t.mem.read (buf + k) = if k < line.length then line.getD k 0 else 0x0020) ∧
      MemKeptOutside (fun a => (buf ≤ a ∧ a < buf + m) ∨ a = lenp) s t

/-- R233: where SVC 1 does not read a line: a buffer past the top raises MemoryAccessError(65,536) whatever the device
holds; otherwise an exhausted device raises EndOfInputError, and a device that never answers leaves the engine
waiting. Rests on the spec's own decisions D15, D17, D20, D30. -/
def Obligations.SvcOneStopsWithoutALine : Prop :=
  ∀ (s : State) (adr : Word) (x : Option Reg), effectiveAddress s adr x = .ok 1 →
    (65536 < uns (s.reg 1) + s.params.inMaxLen → TrapsWith s (exec (.svc adr x) s) (.memoryAccess 65536)) ∧
    (uns (s.reg 1) + s.params.inMaxLen ≤ 65536 → s.dev.input = [] →
      (s.dev.atEnd = .endOfInput → TrapsWith s (exec (.svc adr x) s) .endOfInput) ∧
      (s.dev.atEnd = .noAnswer → exec (.svc adr x) s = .fault .waitingForDevice))

/-- R234, R237: SVC 2 hands the device as many words as the length word says, as they stand in memory, after the lines
already written; a line that would pass the top raises MemoryAccessError(65,536) and nothing is written. Rests on the
spec's own decisions D16, D17. -/
def Obligations.SvcTwoWritesALine : Prop :=
  ∀ (s : State) (adr : Word) (x : Option Reg) (buf n : Nat), effectiveAddress s adr x = .ok 2 →
    buf = uns (s.reg 1) → n = uns (s.mem.read (uns (s.reg 2))) →
    (buf + n ≤ 65536 →
      ∃ t, exec (.svc adr x) s = .next t ∧ t.run = s.run ∧ t.pr = s.pr + 2 ∧ t.steps = s.steps + 1 ∧
        RegsKeptExcept [] s t ∧ t.fr = s.fr ∧ MemKept s t ∧ t.params = s.params ∧ t.host = s.host ∧
        t.draws = s.draws ∧ t.dev = { s.dev with
          output := s.dev.output ++ [(List.range n).map fun k => s.mem.read (buf + k)] }) ∧
    (65536 < buf + n → TrapsWith s (exec (.svc adr x) s) (.memoryAccess 65536))

/-- R235: SVC with a service other than 0, 1 and 2 raises IllegalInstructionError with PR and the SVC's first word,
and changes nothing. Rests on the spec's own decisions D18, D20. -/
def Obligations.UnknownServiceRaisesIllegalInstruction : Prop :=
  ∀ (s : State) (adr : Word) (x : Option Reg) (n : Word), effectiveAddress s adr x = .ok n →
    n ≠ 0 → n ≠ 1 → n ≠ 2 →
    TrapsWith s (exec (.svc adr x) s) (.illegalInstruction s.pr (firstWord (.svc adr x)))

/-! ### The step count (10_state.md) -/

/-- R33: no instruction reads STEPS. With another step count an instruction does the same and adds as much to it.
Rests on the spec's own decision D23. -/
def Obligations.NoInstructionReadsTheStepCount : Prop :=
  ∀ (i : Instr) (s : State) (n : Nat),
    exec i (s.withSteps n) = mapNext (fun t => t.withSteps (n + (t.steps - s.steps))) (exec i s)
end

