-- ==== Sys2Proof/Laws/Decode.lean ====
section
/-! SUPPORT. The fields of word 1 and of a word made of three fields, and what reading a field can answer. -/

namespace Sys2Proof

/-! ### Fields (R71) -/

@[simp] theorem fieldOp_word1 (op : BitVec 8) (r x : BitVec 4) : fieldOp (word1 op r x) = op := by
  apply BitVec.eq_of_getLsbD_eq
  intro i hi
  have h1 : ¬ 8 + i < 4 := by omega
  have h2 : ¬ 8 + i - 4 < 4 := by omega
  have h3 : 8 + i - 4 - 4 = i := by omega
  unfold fieldOp word1
  rw [BitVec.getLsbD_extractLsb', BitVec.getLsbD_append, BitVec.getLsbD_append, if_neg h1, if_neg h2, h3]
  simp [hi]

@[simp] theorem fieldR_word1 (op : BitVec 8) (r x : BitVec 4) : fieldR (word1 op r x) = r := by
  apply BitVec.eq_of_getLsbD_eq
  intro i hi
  have h1 : ¬ 4 + i < 4 := by omega
  have h2 : 4 + i - 4 < 4 := by omega
  unfold fieldR word1
  rw [BitVec.getLsbD_extractLsb', BitVec.getLsbD_append, BitVec.getLsbD_append, if_neg h1, if_pos h2]
  simp [hi]

@[simp] theorem fieldX_word1 (op : BitVec 8) (r x : BitVec 4) : fieldX (word1 op r x) = x := by
  apply BitVec.eq_of_getLsbD_eq
  intro i hi
  unfold fieldX word1
  rw [BitVec.getLsbD_extractLsb', BitVec.getLsbD_append, Nat.zero_add, if_pos hi]
  simp [hi]

/-- Word 1 is its three fields and nothing else. -/
theorem word1_fields (w : Word) : word1 (fieldOp w) (fieldR w) (fieldX w) = w := by
  apply BitVec.eq_of_getLsbD_eq
  intro i hi
  unfold word1 fieldOp fieldR fieldX
  rw [BitVec.getLsbD_append, BitVec.getLsbD_append]
  by_cases h1 : i < 4
  · simp [h1]
  · by_cases h2 : i - 4 < 4
    · have : 4 + (i - 4) = i := by omega
      simp [h1, h2, this]
    · have h3 : 8 + (i - 4 - 4) = i := by omega
      have h4 : i - 4 - 4 < 8 := by omega
      simp [h1, h2, h3, h4]

/-! ### Reading a field (R74, R75, R77) -/

@[simp] theorem readReg_regField (r : Reg) : readReg (regField r) = .ok r := by
  revert r; decide

theorem readReg_eq_ok {f : BitVec 4} {r : Reg} : readReg f = .ok r ↔ f = regField r := by
  constructor
  · intro h
    unfold readReg at h
    split at h
    · cases h
      apply BitVec.eq_of_toNat_eq
      simp [regField]
    · cases h
  · rintro rfl
    exact readReg_regField r

/-- The index field of a well-formed operand reads back. -/
theorem readIndex_indexField {x : Option Reg} (h : indexOk x = true) : readIndex (indexField x) = .ok x := by
  revert x; decide

theorem readIndex_eq_ok {f : BitVec 4} {x : Option Reg} :
    readIndex f = .ok x ↔ f = indexField x ∧ indexOk x = true := by
  constructor
  · intro h
    unfold readIndex at h
    split at h
    · cases h
      rename_i hf
      exact ⟨hf, rfl⟩
    · rename_i hf
      split at h
      · rename_i r hr
        cases h
        rw [readReg_eq_ok] at hr
        refine ⟨hr, ?_⟩
        subst hr
        revert hf
        revert r
        decide
      · cases h
  · rintro ⟨rfl, h⟩
    exact readIndex_indexField h

@[simp] theorem requireZero_zero (h : Head) : requireZero 0#4 h = .ok h := rfl

/-! ### The formats (R72): what a word made for a format reads as, and what a word that reads as one is made of -/

theorem headN_word1 (op : BitVec 8) (i : Instr) : headN (word1 op 0 0) i = .ok (.whole i) := by
  simp [headN]

theorem headRR_word1 (op : BitVec 8) (r1 r2 : Reg) (i : Reg → Reg → Instr) :
    headRR (word1 op (regField r1) (regField r2)) i = .ok (.whole (i r1 r2)) := by
  simp [headRR]

theorem headR_word1 (op : BitVec 8) (r : Reg) (i : Reg → Instr) :
    headR (word1 op (regField r) 0) i = .ok (.whole (i r)) := by
  simp [headR]

theorem headRA_word1 (op : BitVec 8) (r : Reg) {x : Option Reg} (hx : indexOk x = true)
    (i : Reg → Word → Option Reg → Instr) :
    headRA (word1 op (regField r) (indexField x)) i = .ok (.needsAdr fun adr => i r adr x) := by
  simp [headRA, readIndex_indexField hx]

theorem headA_word1 (op : BitVec 8) {x : Option Reg} (hx : indexOk x = true) (i : Word → Option Reg → Instr) :
    headA (word1 op 0 (indexField x)) i = .ok (.needsAdr fun adr => i adr x) := by
  simp [headA, readIndex_indexField hx]

theorem requireZero_eq_ok {f : BitVec 4} {g h : Head} : requireZero f g = .ok h ↔ f = 0 ∧ g = h := by
  unfold requireZero
  split <;> simp_all

theorem headN_eq_ok {w : Word} {i : Instr} {h : Head} (hh : headN w i = .ok h) :
    h = .whole i ∧ fieldR w = 0 ∧ fieldX w = 0 := by
  unfold headN at hh
  split at hh
  · obtain ⟨hx, rfl⟩ := requireZero_eq_ok.mp hh
    exact ⟨rfl, ‹_›, hx⟩
  · cases hh

theorem headRR_eq_ok {w : Word} {i : Reg → Reg → Instr} {h : Head} (hh : headRR w i = .ok h) :
    ∃ r1 r2, h = .whole (i r1 r2) ∧ fieldR w = regField r1 ∧ fieldX w = regField r2 := by
  unfold headRR at hh
  split at hh
  · rename_i r1 r2 h1 h2
    cases hh
    exact ⟨r1, r2, rfl, readReg_eq_ok.mp h1, readReg_eq_ok.mp h2⟩
  · cases hh
  · cases hh

theorem headR_eq_ok {w : Word} {i : Reg → Instr} {h : Head} (hh : headR w i = .ok h) :
    ∃ r, h = .whole (i r) ∧ fieldR w = regField r ∧ fieldX w = 0 := by
  unfold headR at hh
  split at hh
  · rename_i r hr
    obtain ⟨hx, rfl⟩ := requireZero_eq_ok.mp hh
    exact ⟨r, rfl, readReg_eq_ok.mp hr, hx⟩
  · cases hh

theorem headRA_eq_ok {w : Word} {i : Reg → Word → Option Reg → Instr} {h : Head} (hh : headRA w i = .ok h) :
    ∃ r x, h = .needsAdr (fun adr => i r adr x) ∧ fieldR w = regField r ∧ fieldX w = indexField x ∧
      indexOk x = true := by
  unfold headRA at hh
  split at hh
  · rename_i r x hr hx
    cases hh
    exact ⟨r, x, rfl, readReg_eq_ok.mp hr, readIndex_eq_ok.mp hx⟩
  · cases hh
  · cases hh

theorem headA_eq_ok {w : Word} {i : Word → Option Reg → Instr} {h : Head} (hh : headA w i = .ok h) :
    ∃ x, h = .needsAdr (fun adr => i adr x) ∧ fieldR w = 0 ∧ fieldX w = indexField x ∧ indexOk x = true := by
  unfold headA at hh
  split at hh
  · rename_i x hx
    obtain ⟨hr, rfl⟩ := requireZero_eq_ok.mp hh
    exact ⟨x, rfl, hr, readIndex_eq_ok.mp hx⟩
  · cases hh

end Sys2Proof
end

