-- ==== Sys2Proof/Laws/Memory.lean ====
section
/-! SUPPORT. Every memory operation keeps the canonical form, and what memory reads as after each of them. -/

namespace Sys2Proof.Machine

/-! ### The canonical form -/

theorem Memory.wfFrom_cons {lo a : Nat} {v : Word} {m : Memory} :
    Memory.wfFrom lo ((a, v) :: m) = true ↔
      lo ≤ a ∧ a < memWords ∧ v ≠ unlistedWord ∧ Memory.wfFrom (a + 1) m = true := by
  simp [Memory.wfFrom, and_assoc]

theorem Memory.wfFrom_le {m : Memory} {lo lo' : Nat} (h : lo' ≤ lo) (hm : Memory.wfFrom lo m = true) :
    Memory.wfFrom lo' m = true := by
  cases m with
  | nil => rfl
  | cons c m =>
    obtain ⟨a, v⟩ := c
    rw [Memory.wfFrom_cons] at hm ⊢
    exact ⟨h.trans hm.1, hm.2⟩

theorem Memory.write_wfFrom {m : Memory} {lo a : Nat} {v : Word} (hm : Memory.wfFrom lo m = true)
    (hlo : lo ≤ a) (ha : a < memWords) : Memory.wfFrom lo (Memory.write m a v) = true := by
  induction m generalizing lo with
  | nil =>
    by_cases hv : v = unlistedWord
    · simp [Memory.write, hv, Memory.wfFrom]
    · simpa [Memory.write, hv, Memory.wfFrom] using ⟨hlo, ha⟩
  | cons c m ih =>
    obtain ⟨b, u⟩ := c
    have hc := Memory.wfFrom_cons.mp hm
    unfold Memory.write
    split
    · split
      · exact hm
      · rename_i hab hv
        exact Memory.wfFrom_cons.mpr
          ⟨hlo, ha, hv, Memory.wfFrom_cons.mpr ⟨hab, hc.2.1, hc.2.2.1, hc.2.2.2⟩⟩
    · split
      · rename_i _ hab
        split
        · exact Memory.wfFrom_le (by omega) hc.2.2.2
        · rename_i hv
          exact Memory.wfFrom_cons.mpr ⟨hlo, ha, hv, hab ▸ hc.2.2.2⟩
      · rename_i h1 h2
        exact Memory.wfFrom_cons.mpr ⟨hc.1, hc.2.1, hc.2.2.1, ih hc.2.2.2 (by omega)⟩

/-- Writing one word keeps the canonical form. -/
theorem Memory.write_wf {m : Memory} {a : Nat} {v : Word} (hm : m.wf = true) (ha : a < memWords) :
    (m.write a v).wf = true :=
  Memory.write_wfFrom hm (Nat.zero_le a) ha

/-- Writing words that stay inside the address space keeps the canonical form. -/
theorem Memory.writeWords_wf {m : Memory} {a : Nat} {vs : List Word} (hm : m.wf = true)
    (h : a + vs.length ≤ memWords) : (m.writeWords a vs).wf = true := by
  induction vs generalizing m a with
  | nil => exact hm
  | cons v vs ih =>
    simp only [List.length_cons] at h
    exact ih (Memory.write_wf hm (by omega)) (by omega)

/-- R290's MEM_RESET gives a memory in the canonical form, whatever cells the load lists. -/
theorem Memory.ofCells_wf {m : Memory} {cs : List (Nat × Word)} (hm : m.wf = true) :
    (Memory.ofCells m cs).wf = true := by
  induction cs generalizing m with
  | nil => exact hm
  | cons c cs ih =>
    obtain ⟨a, v⟩ := c
    unfold Memory.ofCells
    apply ih
    split
    · exact Memory.write_wf hm ‹_›
    · exact hm

/-- Placing an image that fits keeps the canonical form. -/
theorem Memory.placeImage_wf {m : Memory} {a : Nat} {es : List ImageEntry} (hm : m.wf = true)
    (h : a + es.length ≤ memWords) : (m.placeImage a es).wf = true := by
  induction es generalizing m a with
  | nil => exact hm
  | cons e es ih =>
    simp only [List.length_cons] at h
    cases e with
    | word w => exact ih (Memory.write_wf hm (by omega)) (by omega)
    | reserved => exact ih hm (by omega)

/-- Memory after a load that fits is in the canonical form (R290). -/
theorem resetMem_wf {args : LoadArgs} (h : uns args.loadBase + args.image.length ≤ memWords) :
    (resetMem args).wf = true :=
  Memory.placeImage_wf (Memory.ofCells_wf rfl) h

theorem State.reset_mem_wf : State.reset.mem.wf = true := rfl

/-! ### Reading -/

/-- Below the least listed address nothing is listed. -/
theorem Memory.read_below {m : Memory} {lo a : Nat} (hm : Memory.wfFrom lo m = true) (h : a < lo) :
    m.read a = unlistedWord := by
  cases m with
  | nil => rfl
  | cons c m =>
    obtain ⟨b, u⟩ := c
    have hc := Memory.wfFrom_cons.mp hm
    have h1 : ¬ a = b := by omega
    have h2 : a < b := by omega
    simp [Memory.read, h1, h2]

theorem Memory.read_write_from {m : Memory} {lo a : Nat} {v : Word} (hm : Memory.wfFrom lo m = true) (q : Nat) :
    (Memory.write m a v).read q = if q = a then v else m.read q := by
  induction m generalizing lo with
  | nil =>
    by_cases hv : v = unlistedWord
    · simp only [Memory.write, hv, if_true, Memory.read]
      split <;> rfl
    · simp only [Memory.write, hv, if_false, Memory.read]
      split
      · rfl
      · split <;> rfl
  | cons c m ih =>
    obtain ⟨b, u⟩ := c
    have hc := Memory.wfFrom_cons.mp hm
    unfold Memory.write
    split
    · rename_i hab
      split
      · rename_i hv
        by_cases hq : q = a
        · have h1 : ¬ q = b := by omega
          have h2 : q < b := by omega
          subst hq
          simp [Memory.read, h1, h2, hv]
        · simp [hq]
      · by_cases hq : q = a
        · simp [Memory.read, hq]
        · by_cases hlt : q < a
          · have h1 : ¬ q = b := by omega
            have h2 : q < b := by omega
            simp [Memory.read, hq, hlt, h1, h2]
          · simp [Memory.read, hq, hlt]
    · split
      · rename_i _ hab
        subst hab
        split
        · rename_i hv
          by_cases hq : q = a
          · subst hq
            simp [Memory.read_below hc.2.2.2 (Nat.lt_succ_self q), hv]
          · by_cases hlt : q < a
            · simp [Memory.read, hq, hlt, Memory.read_below hc.2.2.2 (by omega : q < a + 1)]
            · simp [Memory.read, hq, hlt]
        · by_cases hq : q = a
          · simp [Memory.read, hq]
          · simp [Memory.read, hq]
      · rename_i h1 h2
        by_cases hb : q = b
        · have : ¬ b = a := fun h => h2 h.symm
          simp [Memory.read, hb, this]
        · by_cases hlt : q < b
          · have : ¬ q = a := by omega
            simp [Memory.read, hb, hlt, this]
          · simp [Memory.read, hb, hlt, ih hc.2.2.2]

/-- The word at `q` after the word at `a` became `v`: `v` at `a`, and at every other address what was there. -/
theorem Memory.read_write {m : Memory} (hm : m.wf = true) (a : Nat) (v : Word) (q : Nat) :
    (m.write a v).read q = if q = a then v else m.read q :=
  Memory.read_write_from hm q

theorem Memory.read_write_same {m : Memory} (hm : m.wf = true) (a : Nat) (v : Word) :
    (m.write a v).read a = v := by
  simp [Memory.read_write hm]

theorem Memory.read_write_other {m : Memory} (hm : m.wf = true) {a q : Nat} (h : q ≠ a) (v : Word) :
    (m.write a v).read q = m.read q := by
  simp [Memory.read_write hm, h]

/-- The word at `q` after a list of words was written from `a` on, inside the address space. -/
theorem Memory.read_writeWords {m : Memory} (hm : m.wf = true) {a : Nat} {vs : List Word}
    (h : a + vs.length ≤ memWords) (q : Nat) :
    (m.writeWords a vs).read q = if a ≤ q ∧ q < a + vs.length then vs.getD (q - a) 0 else m.read q := by
  induction vs generalizing m a with
  | nil =>
    have : ¬ (a ≤ q ∧ q < a + 0) := by omega
    simp only [Memory.writeWords, List.length_nil, this, if_false]
  | cons v vs ih =>
    simp only [List.length_cons] at h
    rw [Memory.writeWords, ih (Memory.write_wf hm (by omega)) (by omega), Memory.read_write hm]
    by_cases hq : q = a
    · subst hq
      have h1 : ¬ (q + 1 ≤ q ∧ q < q + 1 + vs.length) := by omega
      rw [if_neg h1]
      simp
    · by_cases hin : a + 1 ≤ q ∧ q < a + 1 + vs.length
      · have h2 : a ≤ q ∧ q < a + (v :: vs).length := by simp only [List.length_cons]; omega
        have h3 : q - a = (q - (a + 1)) + 1 := by omega
        rw [if_pos hin, if_pos h2, h3, List.getD_cons_succ]
      · have h2 : ¬ (a ≤ q ∧ q < a + (v :: vs).length) := by simp only [List.length_cons]; omega
        rw [if_neg hin, if_neg h2, if_neg hq]

/-- R233: the buffer an IN writes is `IN_MAX_LEN` words long. -/
@[simp] theorem paddedLine_length (m : Nat) (l : Line) : (paddedLine m l).length = m := by
  simp only [paddedLine, storedCodes, List.length_append, List.length_replicate, List.length_take]
  omega

@[simp] theorem Memory.readWords_length (m : Memory) (a n : Nat) : (m.readWords a n).length = n := by
  induction n generalizing a with
  | zero => rfl
  | succ n ih => simp [Memory.readWords, ih]

/-- The memory an IN leaves is in the canonical form, where the buffer fits (R233). -/
theorem inWrites_wf {s : State} (hm : s.mem.wf = true) (h : uns (s.reg 1) + s.params.inMaxLen ≤ memWords)
    (l : Line) : (inWrites s l).wf = true :=
  Memory.write_wf (Memory.writeWords_wf hm (by simpa using h)) (s.reg 2).isLt

/-- R233: the words of an IN's buffer, the codes of the line and then spaces. -/
theorem paddedLine_getD {m k : Nat} (hk : k < m) (l : Line) :
    (paddedLine m l).getD k 0 = if k < l.length then l.getD k 0 else padCode := by
  have hlen : (storedCodes m l).length = min m l.length := List.length_take
  rw [paddedLine, List.getD_eq_getElem?_getD, List.getD_eq_getElem?_getD]
  split
  · rw [List.getElem?_append_left (by omega), storedCodes, List.getElem?_take, if_pos hk]
  · rw [List.getElem?_append_right (by omega), List.getElem?_replicate, if_pos (by omega)]
    rfl

/-- R233: what memory reads as after an IN: the length word, also inside the buffer; else the buffer; else as before. -/
theorem read_inWrites {s : State} (hm : s.mem.wf = true) (hb : uns (s.reg 1) + s.params.inMaxLen ≤ memWords)
    (l : Line) (q : Nat) :
    (inWrites s l).read q =
      if q = uns (s.reg 2) then lengthWord s l
      else if uns (s.reg 1) ≤ q ∧ q < uns (s.reg 1) + s.params.inMaxLen then
        (paddedLine s.params.inMaxLen l).getD (q - uns (s.reg 1)) 0
      else s.mem.read q := by
  have hb' : uns (s.reg 1) + (paddedLine s.params.inMaxLen l).length ≤ memWords := by simpa using hb
  rw [inWrites, Memory.read_write (Memory.writeWords_wf hm hb'), Memory.read_writeWords hm hb', paddedLine_length]

end Sys2Proof.Machine
end

