-- ==== Sys2Proof/Laws/State.lean ====
section
/-! SUPPORT. One lemma for each field of State after each update, so that no proof unfolds a record update; and what a
register reads after each update. -/

namespace Sys2Proof.Machine

variable (s : State)

/-! ### setReg -/

@[simp] theorem State.setReg_run (r : Reg) (v : Word) : (s.setReg r v).run = s.run := rfl
@[simp] theorem State.setReg_gr (r : Reg) (v : Word) : (s.setReg r v).gr = s.gr.set r v := rfl
@[simp] theorem State.setReg_pr (r : Reg) (v : Word) : (s.setReg r v).pr = s.pr := rfl
@[simp] theorem State.setReg_fr (r : Reg) (v : Word) : (s.setReg r v).fr = s.fr := rfl
@[simp] theorem State.setReg_mem (r : Reg) (v : Word) : (s.setReg r v).mem = s.mem := rfl
@[simp] theorem State.setReg_steps (r : Reg) (v : Word) : (s.setReg r v).steps = s.steps := rfl
@[simp] theorem State.setReg_params (r : Reg) (v : Word) : (s.setReg r v).params = s.params := rfl
@[simp] theorem State.setReg_host (r : Reg) (v : Word) : (s.setReg r v).host = s.host := rfl
@[simp] theorem State.setReg_dev (r : Reg) (v : Word) : (s.setReg r v).dev = s.dev := rfl
@[simp] theorem State.setReg_draws (r : Reg) (v : Word) : (s.setReg r v).draws = s.draws := rfl

/-! ### setFlags -/

@[simp] theorem State.setFlags_run (f : Flags) : (s.setFlags f).run = s.run := rfl
@[simp] theorem State.setFlags_gr (f : Flags) : (s.setFlags f).gr = s.gr := rfl
@[simp] theorem State.setFlags_pr (f : Flags) : (s.setFlags f).pr = s.pr := rfl
@[simp] theorem State.setFlags_fr (f : Flags) : (s.setFlags f).fr = f := rfl
@[simp] theorem State.setFlags_mem (f : Flags) : (s.setFlags f).mem = s.mem := rfl
@[simp] theorem State.setFlags_steps (f : Flags) : (s.setFlags f).steps = s.steps := rfl
@[simp] theorem State.setFlags_params (f : Flags) : (s.setFlags f).params = s.params := rfl
@[simp] theorem State.setFlags_host (f : Flags) : (s.setFlags f).host = s.host := rfl
@[simp] theorem State.setFlags_dev (f : Flags) : (s.setFlags f).dev = s.dev := rfl
@[simp] theorem State.setFlags_draws (f : Flags) : (s.setFlags f).draws = s.draws := rfl
@[simp] theorem State.setFlags_reg (f : Flags) (q : Reg) : (s.setFlags f).reg q = s.reg q := rfl
@[simp] theorem State.setFlags_sp (f : Flags) : (s.setFlags f).sp = s.sp := rfl

/-! ### setMem -/

@[simp] theorem State.setMem_run (m : Memory) : (s.setMem m).run = s.run := rfl
@[simp] theorem State.setMem_gr (m : Memory) : (s.setMem m).gr = s.gr := rfl
@[simp] theorem State.setMem_pr (m : Memory) : (s.setMem m).pr = s.pr := rfl
@[simp] theorem State.setMem_fr (m : Memory) : (s.setMem m).fr = s.fr := rfl
@[simp] theorem State.setMem_mem (m : Memory) : (s.setMem m).mem = m := rfl
@[simp] theorem State.setMem_steps (m : Memory) : (s.setMem m).steps = s.steps := rfl
@[simp] theorem State.setMem_params (m : Memory) : (s.setMem m).params = s.params := rfl
@[simp] theorem State.setMem_host (m : Memory) : (s.setMem m).host = s.host := rfl
@[simp] theorem State.setMem_dev (m : Memory) : (s.setMem m).dev = s.dev := rfl
@[simp] theorem State.setMem_draws (m : Memory) : (s.setMem m).draws = s.draws := rfl
@[simp] theorem State.setMem_reg (m : Memory) (q : Reg) : (s.setMem m).reg q = s.reg q := rfl
@[simp] theorem State.setMem_sp (m : Memory) : (s.setMem m).sp = s.sp := rfl

/-! ### setRun -/

@[simp] theorem State.setRun_run (r : RunState) : (s.setRun r).run = r := rfl
@[simp] theorem State.setRun_gr (r : RunState) : (s.setRun r).gr = s.gr := rfl
@[simp] theorem State.setRun_pr (r : RunState) : (s.setRun r).pr = s.pr := rfl
@[simp] theorem State.setRun_fr (r : RunState) : (s.setRun r).fr = s.fr := rfl
@[simp] theorem State.setRun_mem (r : RunState) : (s.setRun r).mem = s.mem := rfl
@[simp] theorem State.setRun_steps (r : RunState) : (s.setRun r).steps = s.steps := rfl
@[simp] theorem State.setRun_params (r : RunState) : (s.setRun r).params = s.params := rfl
@[simp] theorem State.setRun_host (r : RunState) : (s.setRun r).host = s.host := rfl
@[simp] theorem State.setRun_dev (r : RunState) : (s.setRun r).dev = s.dev := rfl
@[simp] theorem State.setRun_draws (r : RunState) : (s.setRun r).draws = s.draws := rfl
@[simp] theorem State.setRun_reg (r : RunState) (q : Reg) : (s.setRun r).reg q = s.reg q := rfl
@[simp] theorem State.setRun_sp (r : RunState) : (s.setRun r).sp = s.sp := rfl

/-! ### setDev -/

@[simp] theorem State.setDev_run (d : Device) : (s.setDev d).run = s.run := rfl
@[simp] theorem State.setDev_gr (d : Device) : (s.setDev d).gr = s.gr := rfl
@[simp] theorem State.setDev_pr (d : Device) : (s.setDev d).pr = s.pr := rfl
@[simp] theorem State.setDev_fr (d : Device) : (s.setDev d).fr = s.fr := rfl
@[simp] theorem State.setDev_mem (d : Device) : (s.setDev d).mem = s.mem := rfl
@[simp] theorem State.setDev_steps (d : Device) : (s.setDev d).steps = s.steps := rfl
@[simp] theorem State.setDev_params (d : Device) : (s.setDev d).params = s.params := rfl
@[simp] theorem State.setDev_host (d : Device) : (s.setDev d).host = s.host := rfl
@[simp] theorem State.setDev_dev (d : Device) : (s.setDev d).dev = d := rfl
@[simp] theorem State.setDev_draws (d : Device) : (s.setDev d).draws = s.draws := rfl
@[simp] theorem State.setDev_reg (d : Device) (q : Reg) : (s.setDev d).reg q = s.reg q := rfl
@[simp] theorem State.setDev_sp (d : Device) : (s.setDev d).sp = s.sp := rfl

/-! ### setHost -/

@[simp] theorem State.setHost_run (h : HostPort) : (s.setHost h).run = s.run := rfl
@[simp] theorem State.setHost_gr (h : HostPort) : (s.setHost h).gr = s.gr := rfl
@[simp] theorem State.setHost_pr (h : HostPort) : (s.setHost h).pr = s.pr := rfl
@[simp] theorem State.setHost_fr (h : HostPort) : (s.setHost h).fr = s.fr := rfl
@[simp] theorem State.setHost_mem (h : HostPort) : (s.setHost h).mem = s.mem := rfl
@[simp] theorem State.setHost_steps (h : HostPort) : (s.setHost h).steps = s.steps := rfl
@[simp] theorem State.setHost_params (h : HostPort) : (s.setHost h).params = s.params := rfl
@[simp] theorem State.setHost_host (h : HostPort) : (s.setHost h).host = h := rfl
@[simp] theorem State.setHost_dev (h : HostPort) : (s.setHost h).dev = s.dev := rfl
@[simp] theorem State.setHost_draws (h : HostPort) : (s.setHost h).draws = s.draws := rfl
@[simp] theorem State.setHost_reg (h : HostPort) (q : Reg) : (s.setHost h).reg q = s.reg q := rfl
@[simp] theorem State.setHost_sp (h : HostPort) : (s.setHost h).sp = s.sp := rfl

/-! ### draw -/

@[simp] theorem State.draw_run : s.draw.run = s.run := rfl
@[simp] theorem State.draw_gr : s.draw.gr = s.gr := rfl
@[simp] theorem State.draw_pr : s.draw.pr = s.pr := rfl
@[simp] theorem State.draw_fr : s.draw.fr = s.fr := rfl
@[simp] theorem State.draw_mem : s.draw.mem = s.mem := rfl
@[simp] theorem State.draw_steps : s.draw.steps = s.steps := rfl
@[simp] theorem State.draw_params : s.draw.params = s.params := rfl
@[simp] theorem State.draw_host : s.draw.host = s.host := rfl
@[simp] theorem State.draw_dev : s.draw.dev = s.dev := rfl
@[simp] theorem State.draw_draws : s.draw.draws = s.draws + 1 := rfl
@[simp] theorem State.draw_reg (q : Reg) : s.draw.reg q = s.reg q := rfl
@[simp] theorem State.draw_sp : s.draw.sp = s.sp := rfl

/-! ### advance -/

@[simp] theorem State.advance_run (n : Nat) : (s.advance n).run = s.run := rfl
@[simp] theorem State.advance_gr (n : Nat) : (s.advance n).gr = s.gr := rfl
@[simp] theorem State.advance_pr (n : Nat) : (s.advance n).pr = s.pr + n := rfl
@[simp] theorem State.advance_fr (n : Nat) : (s.advance n).fr = s.fr := rfl
@[simp] theorem State.advance_mem (n : Nat) : (s.advance n).mem = s.mem := rfl
@[simp] theorem State.advance_steps (n : Nat) : (s.advance n).steps = s.steps + 1 := rfl
@[simp] theorem State.advance_params (n : Nat) : (s.advance n).params = s.params := rfl
@[simp] theorem State.advance_host (n : Nat) : (s.advance n).host = s.host := rfl
@[simp] theorem State.advance_dev (n : Nat) : (s.advance n).dev = s.dev := rfl
@[simp] theorem State.advance_draws (n : Nat) : (s.advance n).draws = s.draws := rfl
@[simp] theorem State.advance_reg (n : Nat) (q : Reg) : (s.advance n).reg q = s.reg q := rfl
@[simp] theorem State.advance_sp (n : Nat) : (s.advance n).sp = s.sp := rfl

/-! ### goto -/

@[simp] theorem State.goto_run (n : Nat) : (s.goto n).run = s.run := rfl
@[simp] theorem State.goto_gr (n : Nat) : (s.goto n).gr = s.gr := rfl
@[simp] theorem State.goto_pr (n : Nat) : (s.goto n).pr = n := rfl
@[simp] theorem State.goto_fr (n : Nat) : (s.goto n).fr = s.fr := rfl
@[simp] theorem State.goto_mem (n : Nat) : (s.goto n).mem = s.mem := rfl
@[simp] theorem State.goto_steps (n : Nat) : (s.goto n).steps = s.steps + 1 := rfl
@[simp] theorem State.goto_params (n : Nat) : (s.goto n).params = s.params := rfl
@[simp] theorem State.goto_host (n : Nat) : (s.goto n).host = s.host := rfl
@[simp] theorem State.goto_dev (n : Nat) : (s.goto n).dev = s.dev := rfl
@[simp] theorem State.goto_draws (n : Nat) : (s.goto n).draws = s.draws := rfl
@[simp] theorem State.goto_reg (n : Nat) (q : Reg) : (s.goto n).reg q = s.reg q := rfl
@[simp] theorem State.goto_sp (n : Nat) : (s.goto n).sp = s.sp := rfl

/-! ### trap -/

@[simp] theorem State.trap_run (e : RunError) : (s.trap e).run = .haltedError e := rfl
@[simp] theorem State.trap_gr (e : RunError) : (s.trap e).gr = s.gr := rfl
@[simp] theorem State.trap_pr (e : RunError) : (s.trap e).pr = s.pr := rfl
@[simp] theorem State.trap_fr (e : RunError) : (s.trap e).fr = s.fr := rfl
@[simp] theorem State.trap_mem (e : RunError) : (s.trap e).mem = s.mem := rfl
@[simp] theorem State.trap_steps (e : RunError) : (s.trap e).steps = s.steps := rfl
@[simp] theorem State.trap_params (e : RunError) : (s.trap e).params = s.params := rfl
@[simp] theorem State.trap_host (e : RunError) : (s.trap e).host = s.host := rfl
@[simp] theorem State.trap_dev (e : RunError) : (s.trap e).dev = s.dev := rfl
@[simp] theorem State.trap_draws (e : RunError) : (s.trap e).draws = s.draws := rfl
@[simp] theorem State.trap_reg (e : RunError) (q : Reg) : (s.trap e).reg q = s.reg q := rfl
@[simp] theorem State.trap_sp (e : RunError) : (s.trap e).sp = s.sp := rfl

/-! ### Registers -/

theorem State.setReg_reg (r q : Reg) (v : Word) :
    (s.setReg r v).reg q = if q = r then v else s.reg q := by
  simp only [State.reg, State.setReg, Fin.getElem_fin, Vector.getElem_set]
  by_cases h : q = r
  · simp [h]
  · simp [h, Fin.val_inj, Ne.symm h]

/-- A written register reads as what was written (R20: none is hardwired). -/
@[simp] theorem State.setReg_reg_same (r : Reg) (v : Word) : (s.setReg r v).reg r = v := by
  simp [State.setReg_reg]

/-- A write leaves every other register alone. -/
@[simp] theorem State.setReg_reg_other {r q : Reg} (h : q ≠ r) (v : Word) :
    (s.setReg r v).reg q = s.reg q := by
  simp [State.setReg_reg, h]

/-- The stack pointer is GR7 (R22), so that a write to GR7 moves it and a write to another register does not. -/
theorem State.setReg_sp (r : Reg) (v : Word) :
    (s.setReg r v).sp = if r = spReg then v else s.sp := by
  simp only [State.sp, State.setReg_reg, eq_comm]

@[simp] theorem State.setReg_sp_same (v : Word) : (s.setReg spReg v).sp = v :=
  s.setReg_reg_same spReg v

end Sys2Proof.Machine
end

