-- ==== Sys2Proof/Laws/Ops.lean ====
section
/-! SUPPORT. For each shared operation, once, everything it can answer. -/

namespace Sys2Proof.Machine

variable {s t : State}

/-! ### Running an effect -/

@[simp] theorem finish_ok (s t : State) : finish s (.ok t) = .next t := rfl

@[simp] theorem finish_error (s : State) (e : RunError) : finish s (.error e) = .next (s.trap e) := rfl

@[simp] theorem ok_bind {ε α β : Type} (a : α) (f : α → Except ε β) : (Except.ok a >>= f) = f a := rfl

@[simp] theorem error_bind {ε α β : Type} (e : ε) (f : α → Except ε β) :
    ((Except.error e : Except ε α) >>= f) = .error e := rfl

/-- A chain that completes: its first part completed and the rest completed on that. -/
theorem bind_eq_ok {ε α β : Type} {x : Except ε α} {f : α → Except ε β} {b : β} :
    (x >>= f) = .ok b ↔ ∃ a, x = .ok a ∧ f a = .ok b := by
  cases x with
  | error e => simp
  | ok a => simp

/-- A chain that raises: its first part raised, or completed and the rest raised. -/
theorem bind_eq_error {ε α β : Type} {x : Except ε α} {f : α → Except ε β} {e : ε} :
    (x >>= f) = .error e ↔ x = .error e ∨ ∃ a, x = .ok a ∧ f a = .error e := by
  cases x with
  | error e => simp
  | ok a => simp

/-- An effect ends in a next state: the state it computes, or the trap entry of the error it raises (R107). -/
theorem finish_cases {o : Except RunError State} (h : finish s o = .next t) :
    o = .ok t ∨ ∃ e, o = .error e ∧ t = s.trap e := by
  cases o with
  | ok u => simp only [finish_ok, Host.Outcome.next.injEq] at h; exact .inl (h ▸ rfl)
  | error e => simp only [finish_error, Host.Outcome.next.injEq] at h; exact .inr ⟨e, rfl, h.symm⟩

/-! ### Memory access (R52) -/

theorem memRead_cases (s : State) (a : Nat) :
    (a < memWords ∧ memRead s a = .ok (s.mem.read a)) ∨
      (memWords ≤ a ∧ memRead s a = .error (.memoryAccess a)) := by
  unfold memRead
  split
  · exact .inr ⟨‹_›, rfl⟩
  · exact .inl ⟨by omega, rfl⟩

/-- A 16-bit address is always inside the memory. -/
@[simp] theorem memRead_word (s : State) (w : Word) : memRead s (uns w) = .ok (s.mem.read (uns w)) := by
  have : uns w < memWords := w.isLt
  simp [memRead, Nat.not_le.mpr this]

theorem memWrite_cases (s : State) (a : Nat) (v : Word) :
    (a < memWords ∧ memWrite s a v = .ok (s.setMem (s.mem.write a v))) ∨
      (memWords ≤ a ∧ memWrite s a v = .error (.memoryAccess a)) := by
  unfold memWrite
  split
  · exact .inr ⟨‹_›, rfl⟩
  · exact .inl ⟨by omega, rfl⟩

@[simp] theorem memWrite_word (s : State) (w v : Word) :
    memWrite s (uns w) v = .ok (s.setMem (s.mem.write (uns w) v)) := by
  have : uns w < memWords := w.isLt
  simp [memWrite, Nat.not_le.mpr this]

/-! ### The effective address (R78) -/

theorem effectiveAddress_inside {adr : Word} {x : Option Reg} (h : eaSum s adr x < memWords) :
    effectiveAddress s adr x = .ok (BitVec.ofNat 16 (eaSum s adr x)) := by
  simp [effectiveAddress, h]

/-- What the effective-address test can answer. -/
theorem effectiveAddress_cases (s : State) (adr : Word) (x : Option Reg) :
    (eaSum s adr x < memWords ∧ effectiveAddress s adr x = .ok (BitVec.ofNat 16 (eaSum s adr x))) ∨
    (memWords ≤ eaSum s adr x ∧ s.params.eaPolicy = .wrap ∧
      effectiveAddress s adr x = .ok (BitVec.ofNat 16 (eaSum s adr x - memWords))) ∨
    (memWords ≤ eaSum s adr x ∧ s.params.eaPolicy = .fault ∧
      effectiveAddress s adr x = .error (.memoryAccess (eaSum s adr x))) := by
  by_cases h : eaSum s adr x < memWords
  · exact .inl ⟨h, effectiveAddress_inside h⟩
  · have h' : memWords ≤ eaSum s adr x := by omega
    cases hp : s.params.eaPolicy
    · exact .inr (.inr ⟨h', rfl, by simp [effectiveAddress, h, hp]⟩)
    · exact .inr (.inl ⟨h', rfl, by simp [effectiveAddress, h, hp]⟩)

/-- The word operand: the word at the effective address, or the effective-address error. -/
theorem memOperand_eq (s : State) (adr : Word) (x : Option Reg) :
    memOperand s adr x =
      (effectiveAddress s adr x >>= fun ea => .ok (s.mem.read (uns ea))) := by
  unfold memOperand
  cases effectiveAddress s adr x with
  | error e => rfl
  | ok ea => simp

/-! ### The stack (R191, R192) -/

/-- What a push can answer. -/
theorem push_cases (s : State) (v : Word) :
    (s.sp = 0 ∧ push s v = .error (.stackFault s.sp .overflow)) ∨
    (s.sp ≠ 0 ∧ uns s.sp - 1 < memWords ∧
      push s v = .ok ((s.setMem (s.mem.write (uns s.sp - 1) v)).setReg spReg (s.sp - 1))) := by
  by_cases h : s.sp = 0
  · exact .inl ⟨h, by simp [push, h]⟩
  · have hlt : uns s.sp < memWords := s.sp.isLt
    have h1 : ¬ memWords ≤ uns s.sp - 1 := by omega
    exact .inr ⟨h, by omega, by rw [push, if_neg h, memWrite, if_neg h1]; rfl⟩

/-- What a pop can answer. -/
theorem pop_cases (s : State) :
    (uns s.params.spInit ≤ uns s.sp ∧ pop s = .error (.stackFault s.sp .underflow)) ∨
    (uns s.sp < uns s.params.spInit ∧
      pop s = .ok (s.mem.read (uns s.sp), s.setReg spReg (s.sp + 1))) := by
  by_cases h : uns s.params.spInit ≤ uns s.sp
  · exact .inl ⟨h, by simp [pop, h]⟩
  · exact .inr ⟨by omega, by simp [pop, h]⟩

/-! ### Jumps (R170) -/

/-- A jump goes to EA or falls through, or takes the effective-address error. -/
theorem jumpIf_eq (taken : Bool) (adr : Word) (x : Option Reg) (s : State) :
    jumpIf taken adr x s =
      match effectiveAddress s adr x with
      | .error e => .next (s.trap e)
      | .ok ea => .next (if taken then s.goto (uns ea) else s.advance 2) := by
  unfold jumpIf
  cases effectiveAddress s adr x <;> rfl

/-! ### The device (R274, R275) -/

theorem readLine_cases (d : Device) :
    (∃ l rest, d.input = l :: rest ∧ readLine d = .line l { d with input := rest }) ∨
    (d.input = [] ∧ d.atEnd = .endOfInput ∧ readLine d = .endOfInput) ∨
    (d.input = [] ∧ d.atEnd = .noAnswer ∧ readLine d = .never) := by
  cases hi : d.input with
  | cons l rest => exact .inl ⟨l, rest, rfl, by simp [readLine, hi]⟩
  | nil =>
    cases ha : d.atEnd
    · exact .inr (.inl ⟨rfl, rfl, by simp [readLine, hi, ha]⟩)
    · exact .inr (.inr ⟨rfl, rfl, by simp [readLine, hi, ha]⟩)

@[simp] theorem writeLine_output (d : Device) (l : Line) : (writeLine d l).output = d.output ++ [l] := rfl
@[simp] theorem writeLine_input (d : Device) (l : Line) : (writeLine d l).input = d.input := rfl
@[simp] theorem writeLine_atEnd (d : Device) (l : Line) : (writeLine d l).atEnd = d.atEnd := rfl

/-! ### The fetch boundary (R101, R102) -/

@[simp] theorem sampled_calls (h : HostPort) : (sampled h).calls = h.calls := rfl
@[simp] theorem sampled_abort (h : HostPort) : (sampled h).abort = h.abort.tail := rfl

theorem limitReached_eq_some {l : Nat} :
    limitReached s = some l ↔ s.params.stepLimit = some l ∧ l ≤ s.steps := by
  unfold limitReached
  cases s.params.stepLimit with
  | none => simp
  | some k =>
    by_cases h : k ≤ s.steps
    · simp only [h, if_true, Option.some.injEq]
      constructor
      · rintro rfl; exact ⟨rfl, h⟩
      · rintro ⟨rfl, _⟩; rfl
    · simp only [h, if_false, Option.some.injEq]
      constructor
      · intro h'; cases h'
      · rintro ⟨rfl, h'⟩; exact absurd h' h

end Sys2Proof.Machine
end

