-- ==== Sys2Proof/Laws/Exec.lean ====
section
/-! SUPPORT. Said once: what `exec` can answer for each instruction. A later proof takes the cases of `exec_next`
instead of unfolding the meanings. -/

namespace Sys2Proof.Machine

/-- A result written to GR[r] with its flags. -/
abbrev State.setAlu (s : State) (r : Reg) (a : Alu) : State := (s.setReg r a.res).setFlags a.fr

/-- Where a jump leaves the machine. -/
abbrev State.jumped (s : State) (taken : Bool) (target : Nat) : State :=
  if taken then s.goto target else s.advance 2

/-- The state with a word pushed, GR7 one less. -/
abbrev State.pushed (s : State) (v : Word) : State :=
  (s.setMem (s.mem.write (uns s.sp - 1) v)).setReg spReg (s.sp - 1)

/-- The state with the top word popped, GR7 one more. -/
abbrev State.popped (s : State) : State := s.setReg spReg (s.sp + 1)

/-- `Completes s i t`: from `s` the instruction `i` completes in `t`. -/
inductive Completes (s : State) : Instr → State → Prop where
  | nop  :
      Completes s .nop (s.advance 1)
  | ldMem (r : Reg) (adr : Word) (x : Option Reg) (ea : Word) (h : effectiveAddress s adr x = .ok ea) :
      Completes s (.ldMem r adr x) ((s.setReg r (s.mem.read (uns ea))).advance 2)
  | st (r : Reg) (adr : Word) (x : Option Reg) (ea : Word) (h : effectiveAddress s adr x = .ok ea) :
      Completes s (.st r adr x) ((s.setMem (s.mem.write (uns ea) (s.reg r))).advance 2)
  | lad (r : Reg) (adr : Word) (x : Option Reg) (ea : Word) (h : effectiveAddress s adr x = .ok ea) :
      Completes s (.lad r adr x) ((s.setReg r ea).advance 2)
  | ldReg (r1 r2 : Reg) :
      Completes s (.ldReg r1 r2) ((s.setReg r1 (s.reg r2)).advance 1)
  | addaMem (r : Reg) (adr : Word) (x : Option Reg) (ea : Word) (h : effectiveAddress s adr x = .ok ea) :
      Completes s (.addaMem r adr x) ((s.setAlu r (addA (s.reg r) (s.mem.read (uns ea)))).advance 2)
  | addaReg (r1 r2 : Reg) :
      Completes s (.addaReg r1 r2) ((s.setAlu r1 (addA (s.reg r1) (s.reg r2))).advance 1)
  | subaMem (r : Reg) (adr : Word) (x : Option Reg) (ea : Word) (h : effectiveAddress s adr x = .ok ea) :
      Completes s (.subaMem r adr x) ((s.setAlu r (subA (s.reg r) (s.mem.read (uns ea)))).advance 2)
  | subaReg (r1 r2 : Reg) :
      Completes s (.subaReg r1 r2) ((s.setAlu r1 (subA (s.reg r1) (s.reg r2))).advance 1)
  | addlMem (r : Reg) (adr : Word) (x : Option Reg) (ea : Word) (h : effectiveAddress s adr x = .ok ea) :
      Completes s (.addlMem r adr x) ((s.setAlu r (addL s.params.unsignedOf (s.reg r) (s.mem.read (uns ea)))).advance 2)
  | addlReg (r1 r2 : Reg) :
      Completes s (.addlReg r1 r2) ((s.setAlu r1 (addL s.params.unsignedOf (s.reg r1) (s.reg r2))).advance 1)
  | sublMem (r : Reg) (adr : Word) (x : Option Reg) (ea : Word) (h : effectiveAddress s adr x = .ok ea) :
      Completes s (.sublMem r adr x) ((s.setAlu r (subL s.params.unsignedOf (s.reg r) (s.mem.read (uns ea)))).advance 2)
  | sublReg (r1 r2 : Reg) :
      Completes s (.sublReg r1 r2) ((s.setAlu r1 (subL s.params.unsignedOf (s.reg r1) (s.reg r2))).advance 1)
  | andMem (r : Reg) (adr : Word) (x : Option Reg) (ea : Word) (h : effectiveAddress s adr x = .ok ea) :
      Completes s (.andMem r adr x) ((s.setAlu r (logical (s.reg r &&& s.mem.read (uns ea)))).advance 2)
  | andReg (r1 r2 : Reg) :
      Completes s (.andReg r1 r2) ((s.setAlu r1 (logical (s.reg r1 &&& s.reg r2))).advance 1)
  | orMem (r : Reg) (adr : Word) (x : Option Reg) (ea : Word) (h : effectiveAddress s adr x = .ok ea) :
      Completes s (.orMem r adr x) ((s.setAlu r (logical (s.reg r ||| s.mem.read (uns ea)))).advance 2)
  | orReg (r1 r2 : Reg) :
      Completes s (.orReg r1 r2) ((s.setAlu r1 (logical (s.reg r1 ||| s.reg r2))).advance 1)
  | xorMem (r : Reg) (adr : Word) (x : Option Reg) (ea : Word) (h : effectiveAddress s adr x = .ok ea) :
      Completes s (.xorMem r adr x) ((s.setAlu r (logical (s.reg r ^^^ s.mem.read (uns ea)))).advance 2)
  | xorReg (r1 r2 : Reg) :
      Completes s (.xorReg r1 r2) ((s.setAlu r1 (logical (s.reg r1 ^^^ s.reg r2))).advance 1)
  | cpaMem (r : Reg) (adr : Word) (x : Option Reg) (ea : Word) (h : effectiveAddress s adr x = .ok ea) :
      Completes s (.cpaMem r adr x) ((s.setFlags (cmpA (s.reg r) (s.mem.read (uns ea)))).advance 2)
  | cpaReg (r1 r2 : Reg) :
      Completes s (.cpaReg r1 r2) ((s.setFlags (cmpA (s.reg r1) (s.reg r2))).advance 1)
  | cplMem (r : Reg) (adr : Word) (x : Option Reg) (ea : Word) (h : effectiveAddress s adr x = .ok ea) :
      Completes s (.cplMem r adr x) ((s.setFlags (cmpL s.params.unsignedOf (s.reg r) (s.mem.read (uns ea)))).advance 2)
  | cplReg (r1 r2 : Reg) :
      Completes s (.cplReg r1 r2) ((s.setFlags (cmpL s.params.unsignedOf (s.reg r1) (s.reg r2))).advance 1)
  | sla (r : Reg) (adr : Word) (x : Option Reg) (ea : Word) (h : effectiveAddress s adr x = .ok ea) :
      Completes s (.sla r adr x) ((s.setAlu r (logical (shiftLeftA (s.reg r) (uns ea)))).advance 2)
  | sra (r : Reg) (adr : Word) (x : Option Reg) (ea : Word) (h : effectiveAddress s adr x = .ok ea) :
      Completes s (.sra r adr x) ((s.setAlu r (logical (shiftRightA (s.reg r) (uns ea)))).advance 2)
  | sll (r : Reg) (adr : Word) (x : Option Reg) (ea : Word) (h : effectiveAddress s adr x = .ok ea) :
      Completes s (.sll r adr x) ((s.setAlu r (logical (shiftLeftL (s.reg r) (uns ea)))).advance 2)
  | srl (r : Reg) (adr : Word) (x : Option Reg) (ea : Word) (h : effectiveAddress s adr x = .ok ea) :
      Completes s (.srl r adr x) ((s.setAlu r (logical (shiftRightL (s.reg r) (uns ea)))).advance 2)
  | jmi (adr : Word) (x : Option Reg) (ea : Word) (h : effectiveAddress s adr x = .ok ea) :
      Completes s (.jmi adr x) (s.jumped s.fr.SF (uns ea))
  | jnz (adr : Word) (x : Option Reg) (ea : Word) (h : effectiveAddress s adr x = .ok ea) :
      Completes s (.jnz adr x) (s.jumped (!s.fr.ZF) (uns ea))
  | jze (adr : Word) (x : Option Reg) (ea : Word) (h : effectiveAddress s adr x = .ok ea) :
      Completes s (.jze adr x) (s.jumped s.fr.ZF (uns ea))
  | jump (adr : Word) (x : Option Reg) (ea : Word) (h : effectiveAddress s adr x = .ok ea) :
      Completes s (.jump adr x) (s.jumped true (uns ea))
  | jpl (adr : Word) (x : Option Reg) (ea : Word) (h : effectiveAddress s adr x = .ok ea) :
      Completes s (.jpl adr x) (s.jumped (!s.fr.SF && !s.fr.ZF) (uns ea))
  | jov (adr : Word) (x : Option Reg) (ea : Word) (h : effectiveAddress s adr x = .ok ea) :
      Completes s (.jov adr x) (s.jumped s.fr.OF (uns ea))
  | push (adr : Word) (x : Option Reg) (ea : Word) (h : effectiveAddress s adr x = .ok ea) (h0 : s.sp ≠ 0) :
      Completes s (.push adr x) ((s.pushed ea).advance 2)
  | pop (r : Reg) (h : uns s.sp < uns s.params.spInit) :
      Completes s (.pop r) ((s.popped.setReg r (s.mem.read (uns s.sp))).advance 1)
  | call (adr : Word) (x : Option Reg) (ea : Word) (h : effectiveAddress s adr x = .ok ea)
      (hpr : s.pr + 2 < memWords) (h0 : s.sp ≠ 0) :
      Completes s (.call adr x) ((s.pushed (BitVec.ofNat 16 (s.pr + 2))).goto (uns ea))
  | ret (h : uns s.sp < uns s.params.spInit) :
      Completes s .ret (s.popped.goto (uns (s.mem.read (uns s.sp))))
  | svcHalt (adr : Word) (x : Option Reg) (h : effectiveAddress s adr x = .ok 0) :
      Completes s (.svc adr x) ((s.advance 2).setRun .haltedNormal)
  | svcIn (adr : Word) (x : Option Reg) (h : effectiveAddress s adr x = .ok 1)
      (hb : uns (s.reg 1) + s.params.inMaxLen ≤ memWords) (l : Line) (rest : List Line) (hi : s.dev.input = l :: rest) :
      Completes s (.svc adr x)
        (((s.setMem (inWrites s l)).setDev { s.dev with input := rest }).draw.advance 2)
  | svcOut (adr : Word) (x : Option Reg) (h : effectiveAddress s adr x = .ok 2) (n : Nat)
      (hn : n = uns (s.mem.read (uns (s.reg 2)))) (hb : uns (s.reg 1) + n ≤ memWords) :
      Completes s (.svc adr x)
        ((s.setDev (writeLine s.dev (s.mem.readWords (uns (s.reg 1)) n))).advance 2)

/-- `Raises s i e`: what is so when the instruction `i` raises `e` from `s` (R260, R262). -/
inductive Raises (s : State) : Instr → RunError → Prop where
  | memoryAccess (i : Instr) (a : Nat) (h : memWords ≤ a) : Raises s i (.memoryAccess a)
  | overflow (i : Instr) (h : s.sp = 0) : Raises s i (.stackFault s.sp .overflow)
  | underflow (i : Instr) (h : uns s.params.spInit ≤ uns s.sp) : Raises s i (.stackFault s.sp .underflow)
  | unknownService (adr : Word) (x : Option Reg) :
      Raises s (.svc adr x) (.illegalInstruction s.pr (firstWord (.svc adr x)))
  | endOfInput (adr : Word) (x : Option Reg) (hi : s.dev.input = []) (ha : s.dev.atEnd = .endOfInput) :
      Raises s (.svc adr x) .endOfInput

/-- What `exec` may answer for `i` in `s`: completion, the trap entry of an error, or, in an IN only, the wait. -/
def Answers (s : State) (i : Instr) (o : Result) : Prop :=
  (∃ t, o = .next t ∧ Completes s i t) ∨ (∃ e, o = .next (s.trap e) ∧ Raises s i e) ∨
    (o = .fault .waitingForDevice ∧ ∃ adr x, i = .svc adr x ∧ effectiveAddress s adr x = .ok 1 ∧
      uns (s.reg 1) + s.params.inMaxLen ≤ memWords ∧ s.dev.input = [] ∧ s.dev.atEnd = .noAnswer)

theorem Answers.completes {s t : State} {i : Instr} (h : Completes s i t) : Answers s i (.next t) :=
  .inl ⟨t, rfl, h⟩

theorem Answers.raises {s : State} {i : Instr} {e : RunError} (h : Raises s i e) :
    Answers s i (.next (s.trap e)) :=
  .inr (.inl ⟨e, rfl, h⟩)

/-- The shape of every instruction with an address operand: the effective-address test, then the rest. -/
theorem answers_of_address {s : State} {i : Instr} {adr : Word} {x : Option Reg} {f : Word → Except RunError State}
    (h : ∀ ea, effectiveAddress s adr x = .ok ea → Answers s i (finish s (f ea))) :
    Answers s i (finish s (effectiveAddress s adr x >>= f)) := by
  obtain ⟨-, he⟩ | ⟨-, -, he⟩ | ⟨hs, -, he⟩ := effectiveAddress_cases s adr x
  · rw [he, ok_bind]; exact h _ he
  · rw [he, ok_bind]; exact h _ he
  · rw [he, error_bind, finish_error]; exact .raises (.memoryAccess i _ hs)

/-- The shape of every instruction with a memory operand. -/
theorem answers_of_operand {s : State} {i : Instr} {adr : Word} {x : Option Reg} {f : Word → State}
    (h : ∀ ea, effectiveAddress s adr x = .ok ea → Completes s i (f (s.mem.read (uns ea)))) :
    Answers s i (finish s (memOperand s adr x >>= fun v => .ok (f v))) := by
  rw [memOperand_eq]
  obtain ⟨-, he⟩ | ⟨-, -, he⟩ | ⟨hs, -, he⟩ := effectiveAddress_cases s adr x
  · rw [he]; exact .completes (h _ he)
  · rw [he]; exact .completes (h _ he)
  · rw [he]; exact .raises (.memoryAccess i _ hs)

theorem svcIn_answers (s : State) (adr : Word) (x : Option Reg) (h : effectiveAddress s adr x = .ok 1) :
    Answers s (.svc adr x) (svcIn s) := by
  by_cases hb : memWords < uns (s.reg 1) + s.params.inMaxLen
  · rw [svcIn, if_pos hb]; exact .raises (.memoryAccess _ _ (Nat.le_refl _))
  · rw [svcIn, if_neg hb]
    have hb' := Nat.not_lt.mp hb
    obtain ⟨l, rest, hi, hr⟩ | ⟨hi, ha, hr⟩ | ⟨hi, ha, hr⟩ := readLine_cases s.dev
    · rw [hr]; exact .completes (.svcIn adr x h hb' l rest hi)
    · rw [hr]; exact .raises (.endOfInput adr x hi ha)
    · rw [hr]; exact .inr (.inr ⟨rfl, adr, x, rfl, h, hb', hi, ha⟩)

theorem svcOut_answers (s : State) (adr : Word) (x : Option Reg) (h : effectiveAddress s adr x = .ok 2) :
    Answers s (.svc adr x) (svcOut s) := by
  rw [svcOut, memRead_word, ok_bind]
  by_cases hb : memWords < uns (s.reg 1) + uns (s.mem.read (uns (s.reg 2)))
  · rw [if_pos hb]; exact .raises (.memoryAccess _ _ (Nat.le_refl _))
  · rw [if_neg hb]; exact .completes (.svcOut adr x h _ rfl (Nat.not_lt.mp hb))

theorem execSvc_answers (s : State) (adr : Word) (x : Option Reg) :
    Answers s (.svc adr x) (execSvc adr x s) := by
  unfold execSvc
  split
  · rename_i e he
    obtain ⟨-, h⟩ | ⟨-, -, h⟩ | ⟨hs, -, h⟩ := effectiveAddress_cases s adr x
    · cases h.symm.trans he
    · cases h.symm.trans he
    · cases h.symm.trans he; exact .raises (.memoryAccess _ _ hs)
  · rename_i n hn
    split
    · rename_i h0
      exact .completes (.svcHalt adr x (by rw [hn, (BitVec.eq_of_toNat_eq h0 : n = 0)]))
    · rename_i h1
      exact svcIn_answers s adr x (by rw [hn, (BitVec.eq_of_toNat_eq h1 : n = 1)])
    · rename_i h2
      exact svcOut_answers s adr x (by rw [hn, (BitVec.eq_of_toNat_eq h2 : n = 2)])
    · exact .raises (.unknownService adr x)

/-- What `exec` answers, for every instruction in every state. -/
theorem exec_answers (i : Instr) (s : State) : Answers s i (exec i s) := by
  cases i with
  | nop => exact .completes (.nop)
  | ldMem r adr x => exact answers_of_operand fun ea h => .ldMem r adr x ea h
  | st r adr x =>
    exact answers_of_address fun ea h => by
      rw [memWrite_word]; exact .completes (.st r adr x ea h)
  | lad r adr x => exact answers_of_address fun ea h => .completes (.lad r adr x ea h)
  | ldReg r1 r2 => exact .completes (.ldReg r1 r2)
  | addaMem r adr x => exact answers_of_operand fun ea h => .addaMem r adr x ea h
  | addaReg r1 r2 => exact .completes (.addaReg r1 r2)
  | subaMem r adr x => exact answers_of_operand fun ea h => .subaMem r adr x ea h
  | subaReg r1 r2 => exact .completes (.subaReg r1 r2)
  | addlMem r adr x => exact answers_of_operand fun ea h => .addlMem r adr x ea h
  | addlReg r1 r2 => exact .completes (.addlReg r1 r2)
  | sublMem r adr x => exact answers_of_operand fun ea h => .sublMem r adr x ea h
  | sublReg r1 r2 => exact .completes (.sublReg r1 r2)
  | andMem r adr x => exact answers_of_operand fun ea h => .andMem r adr x ea h
  | andReg r1 r2 => exact .completes (.andReg r1 r2)
  | orMem r adr x => exact answers_of_operand fun ea h => .orMem r adr x ea h
  | orReg r1 r2 => exact .completes (.orReg r1 r2)
  | xorMem r adr x => exact answers_of_operand fun ea h => .xorMem r adr x ea h
  | xorReg r1 r2 => exact .completes (.xorReg r1 r2)
  | cpaMem r adr x => exact answers_of_operand fun ea h => .cpaMem r adr x ea h
  | cpaReg r1 r2 => exact .completes (.cpaReg r1 r2)
  | cplMem r adr x => exact answers_of_operand fun ea h => .cplMem r adr x ea h
  | cplReg r1 r2 => exact .completes (.cplReg r1 r2)
  | sla r adr x => exact answers_of_address fun ea h => .completes (.sla r adr x ea h)
  | sra r adr x => exact answers_of_address fun ea h => .completes (.sra r adr x ea h)
  | sll r adr x => exact answers_of_address fun ea h => .completes (.sll r adr x ea h)
  | srl r adr x => exact answers_of_address fun ea h => .completes (.srl r adr x ea h)
  | jmi adr x => exact answers_of_address fun ea h => .completes (.jmi adr x ea h)
  | jnz adr x => exact answers_of_address fun ea h => .completes (.jnz adr x ea h)
  | jze adr x => exact answers_of_address fun ea h => .completes (.jze adr x ea h)
  | jump adr x => exact answers_of_address fun ea h => .completes (.jump adr x ea h)
  | jpl adr x => exact answers_of_address fun ea h => .completes (.jpl adr x ea h)
  | jov adr x => exact answers_of_address fun ea h => .completes (.jov adr x ea h)
  | push adr x =>
    exact answers_of_address fun ea h => by
      obtain ⟨h0, hp⟩ | ⟨h0, -, hp⟩ := push_cases s ea
      · rw [hp]; exact .raises (.overflow _ h0)
      · rw [hp]; exact .completes (.push adr x ea h h0)
  | pop r =>
    change Answers s (.pop r) (execPop r s)
    unfold execPop
    obtain ⟨h, hp⟩ | ⟨h, hp⟩ := pop_cases s
    · rw [hp]; exact .raises (.underflow _ h)
    · rw [hp]; exact .completes (.pop r h)
  | call adr x =>
    exact answers_of_address fun ea h => by
      by_cases hpr : memWords ≤ s.pr + 2
      · rw [returnAddress, if_pos hpr]; exact .raises (.memoryAccess _ _ hpr)
      · rw [returnAddress, if_neg hpr, ok_bind]
        obtain ⟨h0, hp⟩ | ⟨h0, -, hp⟩ := push_cases s (BitVec.ofNat 16 (s.pr + 2))
        · rw [hp]; exact .raises (.overflow _ h0)
        · rw [hp]; exact .completes (.call adr x ea h (Nat.not_le.mp hpr) h0)
  | ret =>
    change Answers s .ret (execRet s)
    unfold execRet
    obtain ⟨h, hp⟩ | ⟨h, hp⟩ := pop_cases s
    · rw [hp]; exact .raises (.underflow _ h)
    · rw [hp]; exact .completes (.ret h)
  | svc adr x => exact execSvc_answers s adr x

/-- The inversion of a next state: the instruction completed, or it raised an error and the state is its trap entry. -/
theorem exec_next {i : Instr} {s t : State} (h : exec i s = .next t) :
    Completes s i t ∨ ∃ e, t = s.trap e ∧ Raises s i e := by
  obtain ⟨u, hu, hc⟩ | ⟨e, he, hr⟩ | ⟨hf, -⟩ := exec_answers i s
  · rw [h, Host.Outcome.next.injEq] at hu; exact .inl (hu ▸ hc)
  · rw [h, Host.Outcome.next.injEq] at he; exact .inr ⟨e, he, hr⟩
  · rw [h] at hf; cases hf

end Sys2Proof.Machine
end

