-- ==== Sys2Proof/Laws/PerInstr.lean ====
section
/-! SUPPORT. A statement about each instruction as syntax: its first word matches its row of the opcode table, and
its words are as many as its format takes (30_encoding.md R73, R80, R81). -/

namespace Sys2Proof.Laws.TableRow

/-- Some row of the table has the instruction's format and matches its first word, and the encoding is one word for the
formats N, RR and R and two for RA and A. -/
def Statement (i : Instr) : Prop :=
  (∃ row ∈ opcodeTable, row.format = i.format ∧ row.matches (firstWord i) = true) ∧
    (encode i).length = i.words

/-- A row named by its place in the table gives the statement. -/
theorem of_row {i : Instr} (n : Fin 38) (hf : (opcodeTable[n.val]'n.isLt).format = i.format)
    (hm : (opcodeTable[n.val]'n.isLt).matches (firstWord i) = true) (hl : (encode i).length = i.words) :
    Statement i :=
  ⟨⟨_, List.getElem_mem n.isLt, hf, hm⟩, hl⟩

theorem nop : Statement .nop :=
  of_row 0 rfl (by decide) rfl

theorem ldMem (r : Reg) (adr : Word) (x : Option Reg) : Statement (.ldMem r adr x) :=
  of_row 1 rfl ((by decide : ∀ (r : Reg) (x : Option Reg),
    (opcodeTable[1]).matches (firstWord (.ldMem r 0 x)) = true) r x) rfl

theorem st (r : Reg) (adr : Word) (x : Option Reg) : Statement (.st r adr x) :=
  of_row 2 rfl ((by decide : ∀ (r : Reg) (x : Option Reg),
    (opcodeTable[2]).matches (firstWord (.st r 0 x)) = true) r x) rfl

theorem lad (r : Reg) (adr : Word) (x : Option Reg) : Statement (.lad r adr x) :=
  of_row 3 rfl ((by decide : ∀ (r : Reg) (x : Option Reg),
    (opcodeTable[3]).matches (firstWord (.lad r 0 x)) = true) r x) rfl

theorem ldReg (r1 : Reg) (r2 : Reg) : Statement (.ldReg r1 r2) :=
  of_row 4 rfl ((by decide : ∀ (r1 : Reg) (r2 : Reg),
    (opcodeTable[4]).matches (firstWord (.ldReg r1 r2)) = true) r1 r2) rfl

theorem addaMem (r : Reg) (adr : Word) (x : Option Reg) : Statement (.addaMem r adr x) :=
  of_row 5 rfl ((by decide : ∀ (r : Reg) (x : Option Reg),
    (opcodeTable[5]).matches (firstWord (.addaMem r 0 x)) = true) r x) rfl

theorem subaMem (r : Reg) (adr : Word) (x : Option Reg) : Statement (.subaMem r adr x) :=
  of_row 6 rfl ((by decide : ∀ (r : Reg) (x : Option Reg),
    (opcodeTable[6]).matches (firstWord (.subaMem r 0 x)) = true) r x) rfl

theorem addlMem (r : Reg) (adr : Word) (x : Option Reg) : Statement (.addlMem r adr x) :=
  of_row 7 rfl ((by decide : ∀ (r : Reg) (x : Option Reg),
    (opcodeTable[7]).matches (firstWord (.addlMem r 0 x)) = true) r x) rfl

theorem sublMem (r : Reg) (adr : Word) (x : Option Reg) : Statement (.sublMem r adr x) :=
  of_row 8 rfl ((by decide : ∀ (r : Reg) (x : Option Reg),
    (opcodeTable[8]).matches (firstWord (.sublMem r 0 x)) = true) r x) rfl

theorem addaReg (r1 : Reg) (r2 : Reg) : Statement (.addaReg r1 r2) :=
  of_row 9 rfl ((by decide : ∀ (r1 : Reg) (r2 : Reg),
    (opcodeTable[9]).matches (firstWord (.addaReg r1 r2)) = true) r1 r2) rfl

theorem subaReg (r1 : Reg) (r2 : Reg) : Statement (.subaReg r1 r2) :=
  of_row 10 rfl ((by decide : ∀ (r1 : Reg) (r2 : Reg),
    (opcodeTable[10]).matches (firstWord (.subaReg r1 r2)) = true) r1 r2) rfl

theorem addlReg (r1 : Reg) (r2 : Reg) : Statement (.addlReg r1 r2) :=
  of_row 11 rfl ((by decide : ∀ (r1 : Reg) (r2 : Reg),
    (opcodeTable[11]).matches (firstWord (.addlReg r1 r2)) = true) r1 r2) rfl

theorem sublReg (r1 : Reg) (r2 : Reg) : Statement (.sublReg r1 r2) :=
  of_row 12 rfl ((by decide : ∀ (r1 : Reg) (r2 : Reg),
    (opcodeTable[12]).matches (firstWord (.sublReg r1 r2)) = true) r1 r2) rfl

theorem andMem (r : Reg) (adr : Word) (x : Option Reg) : Statement (.andMem r adr x) :=
  of_row 13 rfl ((by decide : ∀ (r : Reg) (x : Option Reg),
    (opcodeTable[13]).matches (firstWord (.andMem r 0 x)) = true) r x) rfl

theorem orMem (r : Reg) (adr : Word) (x : Option Reg) : Statement (.orMem r adr x) :=
  of_row 14 rfl ((by decide : ∀ (r : Reg) (x : Option Reg),
    (opcodeTable[14]).matches (firstWord (.orMem r 0 x)) = true) r x) rfl

theorem xorMem (r : Reg) (adr : Word) (x : Option Reg) : Statement (.xorMem r adr x) :=
  of_row 15 rfl ((by decide : ∀ (r : Reg) (x : Option Reg),
    (opcodeTable[15]).matches (firstWord (.xorMem r 0 x)) = true) r x) rfl

theorem andReg (r1 : Reg) (r2 : Reg) : Statement (.andReg r1 r2) :=
  of_row 16 rfl ((by decide : ∀ (r1 : Reg) (r2 : Reg),
    (opcodeTable[16]).matches (firstWord (.andReg r1 r2)) = true) r1 r2) rfl

theorem orReg (r1 : Reg) (r2 : Reg) : Statement (.orReg r1 r2) :=
  of_row 17 rfl ((by decide : ∀ (r1 : Reg) (r2 : Reg),
    (opcodeTable[17]).matches (firstWord (.orReg r1 r2)) = true) r1 r2) rfl

theorem xorReg (r1 : Reg) (r2 : Reg) : Statement (.xorReg r1 r2) :=
  of_row 18 rfl ((by decide : ∀ (r1 : Reg) (r2 : Reg),
    (opcodeTable[18]).matches (firstWord (.xorReg r1 r2)) = true) r1 r2) rfl

theorem cpaMem (r : Reg) (adr : Word) (x : Option Reg) : Statement (.cpaMem r adr x) :=
  of_row 19 rfl ((by decide : ∀ (r : Reg) (x : Option Reg),
    (opcodeTable[19]).matches (firstWord (.cpaMem r 0 x)) = true) r x) rfl

theorem cplMem (r : Reg) (adr : Word) (x : Option Reg) : Statement (.cplMem r adr x) :=
  of_row 20 rfl ((by decide : ∀ (r : Reg) (x : Option Reg),
    (opcodeTable[20]).matches (firstWord (.cplMem r 0 x)) = true) r x) rfl

theorem cpaReg (r1 : Reg) (r2 : Reg) : Statement (.cpaReg r1 r2) :=
  of_row 21 rfl ((by decide : ∀ (r1 : Reg) (r2 : Reg),
    (opcodeTable[21]).matches (firstWord (.cpaReg r1 r2)) = true) r1 r2) rfl

theorem cplReg (r1 : Reg) (r2 : Reg) : Statement (.cplReg r1 r2) :=
  of_row 22 rfl ((by decide : ∀ (r1 : Reg) (r2 : Reg),
    (opcodeTable[22]).matches (firstWord (.cplReg r1 r2)) = true) r1 r2) rfl

theorem sla (r : Reg) (adr : Word) (x : Option Reg) : Statement (.sla r adr x) :=
  of_row 23 rfl ((by decide : ∀ (r : Reg) (x : Option Reg),
    (opcodeTable[23]).matches (firstWord (.sla r 0 x)) = true) r x) rfl

theorem sra (r : Reg) (adr : Word) (x : Option Reg) : Statement (.sra r adr x) :=
  of_row 24 rfl ((by decide : ∀ (r : Reg) (x : Option Reg),
    (opcodeTable[24]).matches (firstWord (.sra r 0 x)) = true) r x) rfl

theorem sll (r : Reg) (adr : Word) (x : Option Reg) : Statement (.sll r adr x) :=
  of_row 25 rfl ((by decide : ∀ (r : Reg) (x : Option Reg),
    (opcodeTable[25]).matches (firstWord (.sll r 0 x)) = true) r x) rfl

theorem srl (r : Reg) (adr : Word) (x : Option Reg) : Statement (.srl r adr x) :=
  of_row 26 rfl ((by decide : ∀ (r : Reg) (x : Option Reg),
    (opcodeTable[26]).matches (firstWord (.srl r 0 x)) = true) r x) rfl

theorem jmi (adr : Word) (x : Option Reg) : Statement (.jmi adr x) :=
  of_row 27 rfl ((by decide : ∀ (x : Option Reg),
    (opcodeTable[27]).matches (firstWord (.jmi 0 x)) = true) x) rfl

theorem jnz (adr : Word) (x : Option Reg) : Statement (.jnz adr x) :=
  of_row 28 rfl ((by decide : ∀ (x : Option Reg),
    (opcodeTable[28]).matches (firstWord (.jnz 0 x)) = true) x) rfl

theorem jze (adr : Word) (x : Option Reg) : Statement (.jze adr x) :=
  of_row 29 rfl ((by decide : ∀ (x : Option Reg),
    (opcodeTable[29]).matches (firstWord (.jze 0 x)) = true) x) rfl

theorem jump (adr : Word) (x : Option Reg) : Statement (.jump adr x) :=
  of_row 30 rfl ((by decide : ∀ (x : Option Reg),
    (opcodeTable[30]).matches (firstWord (.jump 0 x)) = true) x) rfl

theorem jpl (adr : Word) (x : Option Reg) : Statement (.jpl adr x) :=
  of_row 31 rfl ((by decide : ∀ (x : Option Reg),
    (opcodeTable[31]).matches (firstWord (.jpl 0 x)) = true) x) rfl

theorem jov (adr : Word) (x : Option Reg) : Statement (.jov adr x) :=
  of_row 32 rfl ((by decide : ∀ (x : Option Reg),
    (opcodeTable[32]).matches (firstWord (.jov 0 x)) = true) x) rfl

theorem push (adr : Word) (x : Option Reg) : Statement (.push adr x) :=
  of_row 33 rfl ((by decide : ∀ (x : Option Reg),
    (opcodeTable[33]).matches (firstWord (.push 0 x)) = true) x) rfl

theorem pop (r : Reg) : Statement (.pop r) :=
  of_row 34 rfl ((by decide : ∀ (r : Reg),
    (opcodeTable[34]).matches (firstWord (.pop r)) = true) r) rfl

theorem call (adr : Word) (x : Option Reg) : Statement (.call adr x) :=
  of_row 35 rfl ((by decide : ∀ (x : Option Reg),
    (opcodeTable[35]).matches (firstWord (.call 0 x)) = true) x) rfl

theorem ret : Statement .ret :=
  of_row 36 rfl (by decide) rfl

theorem svc (adr : Word) (x : Option Reg) : Statement (.svc adr x) :=
  of_row 37 rfl ((by decide : ∀ (x : Option Reg),
    (opcodeTable[37]).matches (firstWord (.svc 0 x)) = true) x) rfl

end Sys2Proof.Laws.TableRow
end

