-- ==== Sys2Proof/Laws/Step.lean ====
section
/-! SUPPORT. Said once: what a step can answer, running and not running, and what the fetch gives. -/

namespace Sys2Proof.Machine

variable {s t : State}

/-! ### The fetch (R103 to R105) -/

/-- A word 1 that needs an `adr` belongs to a 2-word instruction. -/
theorem decodeHead_needsAdr_words {w : Word} {f : Word → Instr} (h : decodeHead w = .ok (.needsAdr f)) (adr : Word) :
    (f adr).words = 2 := by
  unfold decodeHead at h
  split at h
  all_goals first
    | (obtain ⟨_, _, h1, -⟩ := headRA_eq_ok h; cases h1; rfl)
    | (obtain ⟨_, h1, -⟩ := headA_eq_ok h; cases h1; rfl)
    | (have h1 := headRR_eq_ok h; obtain ⟨_, _, h1, -⟩ := h1; cases h1)
    | (have h1 := headR_eq_ok h; obtain ⟨_, h1, -⟩ := h1; cases h1)
    | (have h1 := headN_eq_ok h; obtain ⟨h1, -⟩ := h1; cases h1)
    | cases h

/-- A word 1 that is a whole instruction belongs to a 1-word instruction. -/
theorem decodeHead_whole_words {w : Word} {i : Instr} (h : decodeHead w = .ok (.whole i)) : i.words = 1 := by
  unfold decodeHead at h
  split at h
  all_goals first
    | (have h1 := headRA_eq_ok h; obtain ⟨_, _, h1, -⟩ := h1; cases h1)
    | (have h1 := headA_eq_ok h; obtain ⟨_, h1, -⟩ := h1; cases h1)
    | (have h1 := headRR_eq_ok h; obtain ⟨_, _, h1, -⟩ := h1; cases h1; rfl)
    | (have h1 := headR_eq_ok h; obtain ⟨_, h1, -⟩ := h1; cases h1; rfl)
    | (have h1 := headN_eq_ok h; obtain ⟨h1, -⟩ := h1; cases h1; rfl)
    | cases h

/-- The errors of a fetch: past the top of memory, or a word 1 that spells no instruction. -/
theorem fetch_error {e : RunError} (h : fetch s = .error e) :
    (∃ a, memWords ≤ a ∧ e = .memoryAccess a) ∨
      (s.pr < memWords ∧ (∃ r, decodeHead (s.mem.read s.pr) = .error r) ∧
        e = .illegalInstruction s.pr (s.mem.read s.pr)) := by
  unfold fetch at h
  obtain ⟨hlt, hr⟩ | ⟨hge, hr⟩ := memRead_cases s s.pr
  · rw [hr, ok_bind] at h
    split at h
    · cases h; exact .inr ⟨hlt, ⟨_, ‹_›⟩, rfl⟩
    · cases h
    · obtain ⟨-, hr2⟩ | ⟨hge, hr2⟩ := memRead_cases s (s.pr + 1)
      · rw [hr2] at h; cases h
      · rw [hr2] at h; cases h; exact .inl ⟨_, hge, rfl⟩
  · rw [hr] at h; cases h; exact .inl ⟨_, hge, rfl⟩

/-- A fetch that succeeds: the words at PR spell the instruction and all of them are inside the memory. -/
theorem fetch_ok {i : Instr} (h : fetch s = .ok i) :
    s.pr + i.words ≤ memWords ∧
      (decodeHead (s.mem.read s.pr) = .ok (.whole i) ∨
        ∃ f, decodeHead (s.mem.read s.pr) = .ok (.needsAdr f) ∧ i = f (s.mem.read (s.pr + 1))) := by
  unfold fetch at h
  obtain ⟨hlt, hr⟩ | ⟨-, hr⟩ := memRead_cases s s.pr
  · rw [hr, ok_bind] at h
    split at h
    · cases h
    · rename_i j hj
      cases h
      exact ⟨by have := decodeHead_whole_words hj; omega, .inl hj⟩
    · rename_i f hf
      obtain ⟨hlt2, hr2⟩ | ⟨-, hr2⟩ := memRead_cases s (s.pr + 1)
      · rw [hr2] at h
        cases h
        have := decodeHead_needsAdr_words hf (s.mem.read (s.pr + 1))
        exact ⟨by omega, .inr ⟨f, hf, rfl⟩⟩
      · rw [hr2] at h; cases h
  · rw [hr] at h; cases h

/-! ### A running engine (R101 to R110) -/

/-- Past the abort and the step limit, the step is the fetch and then the instruction. -/
theorem step_of_reachesFetch (h : ReachesFetch s) :
    step s = match fetch s with
      | .error e => .next (s.afterSampling.trap e)
      | .ok i => exec i s.afterSampling := by
  unfold step
  rw [h.1]
  simp only [engineStep, h.2.1, h.2.2]
  rfl

/-- The inversion of a running engine's step into a next state, in R264's order. -/
theorem step_running_next (hrun : s.run = .running) (h : step s = .next t) :
    (abortAsserted s.host = true ∧ t = s.afterSampling.trap .aborted) ∨
    (abortAsserted s.host = false ∧ ∃ l, limitReached s = some l ∧ t = s.afterSampling.trap (.stepLimitExceeded l)) ∨
    (ReachesFetch s ∧ ∃ e, fetch s = .error e ∧ t = s.afterSampling.trap e) ∨
    (ReachesFetch s ∧ ∃ i, fetch s = .ok i ∧ exec i s.afterSampling = .next t) := by
  unfold step at h
  rw [hrun] at h
  simp only [engineStep] at h
  split at h
  · cases h; exact .inl ⟨‹_›, rfl⟩
  · rename_i ha
    have ha := Bool.eq_false_iff.mpr ha
    split at h
    · cases h; exact .inr (.inl ⟨ha, _, ‹_›, rfl⟩)
    · rename_i hl
      split at h
      · cases h; exact .inr (.inr (.inl ⟨⟨hrun, ha, hl⟩, _, ‹_›, rfl⟩))
      · exact .inr (.inr (.inr ⟨⟨hrun, ha, hl⟩, _, ‹_›, h⟩))

/-! ### An engine that is not running (R100, R290 to R294) -/

theorem step_not_running (hrun : s.run ≠ .running) : step s = hostStep s := by
  unfold step
  cases h : s.run with
  | running => exact absurd h hrun
  | ready => rfl
  | haltedNormal => rfl
  | haltedError e => rfl

/-- The inversion of the host's next call into a next state: a start or a load that fits. -/
theorem hostStep_next (h : hostStep s = .next t) :
    (∃ cs, s.host.calls = .start :: cs ∧ t = start (s.setHost { s.host with calls := cs })) ∨
    (∃ args cs, s.host.calls = .load args :: cs ∧ uns args.loadBase + args.image.length ≤ memWords ∧
      t = loadedState args { s.host with calls := cs } s.dev s.draws) := by
  unfold hostStep at h
  split at h
  · cases h
  · cases h; exact .inl ⟨_, ‹_›, rfl⟩
  · unfold load at h
    split at h
    · cases h
    · cases h; exact .inr ⟨_, _, ‹_›, by omega, rfl⟩

end Sys2Proof.Machine
end

