-- ==== Sys2Proof/Machine/Macros.lean ====
section
/-! DEFINITION. The machine instructions that the assembler's macros IN, OUT and EXIT stand for (30_encoding.md R85,
R86). They are no instructions of the engine; the assembler itself is out of scope (R5). -/

namespace Sys2Proof.Machine

/-- R85: save GR1 and GR2, pass the two addresses in them, call the service, restore them. -/
def ioMacro (service buf len : Word) : List Instr :=
  [.push 0 (some 1), .push 0 (some 2), .lad 1 buf none, .lad 2 len none, .svc service none, .pop 2, .pop 1]

/-- R85: `IN buf,len`. -/
def inMacro (buf len : Word) : List Instr := ioMacro 1 buf len

/-- R85: `OUT buf,len`. -/
def outMacro (buf len : Word) : List Instr := ioMacro 2 buf len

/-- R86: `EXIT` is SVC 0. -/
def exitMacro : List Instr := [.svc 0 none]

/-- The words of a sequence of instructions, in order. -/
def assemble (is : List Instr) : List Word := is.flatMap encode

end Sys2Proof.Machine
end

