-- ==== Sys2Proof/Tests/Slice0.lean ====
section
/-! SUPPORT. The model's own tests. Every expected value is from the spec: 95_test_vectors.md (named by its part), or
the rule named beside it. Then, for each statement with hypotheses, a witness that meets them. -/

namespace Sys2Proof.Machine.Tests

/-! ### Helpers -/

/-- Running at 0x0010 with GR7 = 0xFFFF, no abort, no step limit, every flag set. -/
def base : State :=
  { State.reset with run := .running, pr := 0x0010, fr := ⟨true, true, true⟩, host := ⟨[], []⟩ }

/-- `base` with GR1 and GR2. -/
def regs (a b : Word) : State := (base.setReg 1 a).setReg 2 b

/-- `base` with GR1 and one word of memory. -/
def regMem (a : Word) (addr : Nat) (v : Word) : State := (base.setReg 1 a).setMem (base.mem.write addr v)

/-- `base` with GR7 and one word of memory. -/
def stack (sp : Word) (addr : Nat) (v : Word) : State := (base.setReg spReg sp).setMem (base.mem.write addr v)

/-- `base` with other flags. -/
def flags (o s z : Bool) : State := base.setFlags ⟨o, s, z⟩

/-- The outcome is a next state of which `p` holds. -/
def sees (o : Result) (p : State → Bool) : Bool :=
  match o with
  | .next t => p t
  | .fault _ => false
  | .refused _ => false

/-- The outcome is the trap entry of `e` from `s`, all of `s` but the run state kept. -/
def traps (s : State) (o : Result) (e : RunError) : Bool := sees o fun t => t == { s with run := .haltedError e }

/-- GR[r] and the flags after an instruction. -/
def result (r : Reg) (v : Word) (o s z : Bool) (t : State) : Bool := t.reg r == v && t.fr == ⟨o, s, z⟩

/-! ### WellFormed: its one check refuses GR0 as an index register (R23, R77) -/

theorem test_wf_refuses_gr0_index_RA : (Instr.ldMem 1 0x0100 (some 0)).wf = false := by decide
theorem test_wf_refuses_gr0_index_A : (Instr.jump 0x0100 (some 0)).wf = false := by decide
theorem test_wf_allows_gr0_operand : (Instr.addaReg 0 0).wf = true ∧ (Instr.svc 0 (some 7)).wf = true := by decide

/-! ### Decoding: words from the opcode map of 30_encoding.md (op, r, x; adr) and from part 2.9 -/

theorem test_decode_load_store :
    decode [0x1010, 0x000A] = .ok (.ldMem 1 0x000A none, []) ∧
    decode [0x1172, 0x0200] = .ok (.st 7 0x0200 (some 2), []) ∧
    decode [0x1211, 0xFFFF] = .ok (.lad 1 0xFFFF (some 1), []) ∧
    decode [0x1412] = .ok (.ldReg 1 2, []) := ⟨rfl, rfl, rfl, rfl⟩

theorem test_decode_arithmetic_mem :
    decode [0x2012, 0x0010] = .ok (.addaMem 1 0x0010 (some 2), []) ∧
    decode [0x2120, 0x0015] = .ok (.subaMem 2 0x0015 none, []) ∧
    decode [0x2207, 0x8000] = .ok (.addlMem 0 0x8000 (some 7), []) ∧
    decode [0x2363, 0x0001] = .ok (.sublMem 6 0x0001 (some 3), []) := ⟨rfl, rfl, rfl, rfl⟩

theorem test_decode_arithmetic_reg :
    decode [0x2412] = .ok (.addaReg 1 2, []) ∧ decode [0x2507] = .ok (.subaReg 0 7, []) ∧
    decode [0x2670] = .ok (.addlReg 7 0, []) ∧ decode [0x2734] = .ok (.sublReg 3 4, []) := ⟨rfl, rfl, rfl, rfl⟩

theorem test_decode_logical :
    decode [0x3015, 0x0100] = .ok (.andMem 1 0x0100 (some 5), []) ∧
    decode [0x3120, 0x0100] = .ok (.orMem 2 0x0100 none, []) ∧
    decode [0x3231, 0x0100] = .ok (.xorMem 3 0x0100 (some 1), []) ∧
    decode [0x3412] = .ok (.andReg 1 2, []) ∧ decode [0x3523] = .ok (.orReg 2 3, []) ∧
    decode [0x3644] = .ok (.xorReg 4 4, []) := ⟨rfl, rfl, rfl, rfl, rfl, rfl⟩

theorem test_decode_compare :
    decode [0x4010, 0x0100] = .ok (.cpaMem 1 0x0100 none, []) ∧
    decode [0x4126, 0x0100] = .ok (.cplMem 2 0x0100 (some 6), []) ∧
    decode [0x4412] = .ok (.cpaReg 1 2, []) ∧ decode [0x4571] = .ok (.cplReg 7 1, []) := ⟨rfl, rfl, rfl, rfl⟩

theorem test_decode_shift :
    decode [0x5010, 0x0001] = .ok (.sla 1 0x0001 none, []) ∧
    decode [0x5122, 0x0000] = .ok (.sra 2 0x0000 (some 2), []) ∧
    decode [0x5212, 0x0001] = .ok (.sll 1 0x0001 (some 2), []) ∧
    decode [0x5370, 0x000F] = .ok (.srl 7 0x000F none, []) := ⟨rfl, rfl, rfl, rfl⟩

theorem test_decode_jump :
    decode [0x6100, 0x000C] = .ok (.jmi 0x000C none, []) ∧ decode [0x6202, 0x0001] = .ok (.jnz 0x0001 (some 2), []) ∧
    decode [0x6301, 0xFFFF] = .ok (.jze 0xFFFF (some 1), []) ∧
    decode [0x6401, 0x0000] = .ok (.jump 0x0000 (some 1), []) ∧
    decode [0x6507, 0x0000] = .ok (.jpl 0x0000 (some 7), []) ∧
    decode [0x6600, 0x0008] = .ok (.jov 0x0008 none, []) := ⟨rfl, rfl, rfl, rfl, rfl, rfl⟩

theorem test_decode_stack :
    decode [0x7001, 0x0000] = .ok (.push 0x0000 (some 1), []) ∧ decode [0x7170] = .ok (.pop 7, []) ∧
    decode [0x8000, 0x0100] = .ok (.call 0x0100 none, []) ∧ decode [0x8100] = .ok (.ret, []) := ⟨rfl, rfl, rfl, rfl⟩

theorem test_decode_system :
    decode [0x0000, 0x1412] = .ok (.nop, [0x1412]) ∧ decode [0xF003, 0x0000] = .ok (.svc 0x0000 (some 3), []) :=
  ⟨rfl, rfl⟩

/-- The illegal words of part 2.9, each rejected by name (R81). -/
theorem test_decode_rejects :
    decode [0x0001] = .error (.unusedField 1) ∧ decode [0x00FF] = .error (.unusedField 0xF) ∧
    decode [0x1018, 0x0000] = .error (.registerField 8) ∧ decode [0x1300] = .error (.unknownOpcode 0x13) ∧
    decode [0x1481] = .error (.registerField 8) ∧ decode [0x6110, 0x0000] = .error (.unusedField 1) ∧
    decode [0x7121] = .error (.unusedField 1) ∧ decode [0x8101] = .error (.unusedField 1) ∧
    decode [0xFF00] = .error (.unknownOpcode 0xFF) ∧ decode [0x1010] = .error .truncated :=
  ⟨rfl, rfl, rfl, rfl, rfl, rfl, rfl, rfl, rfl, rfl⟩

/-- The host's numbering: word 2 is bits 31..16, and a row of 16 bits has an `adr` of 0. -/
theorem test_decodeTableWord :
    decodeTableWord 32 0x000A1010 = some (.ldMem 1 0x000A none) ∧
    decodeTableWord 16 0x1010 = some (.ldMem 1 0 none) ∧ decodeTableWord 16 0x0001 = none := ⟨rfl, rfl, rfl⟩

/-- R85, R86, P4: the words of IN BUF,LEN, of OUT BUF,LEN and of EXIT. -/
theorem test_macros :
    assemble (inMacro 0x001B 0x001A) =
      [0x7001, 0, 0x7002, 0, 0x1210, 0x001B, 0x1220, 0x001A, 0xF000, 1, 0x7120, 0x7110] ∧
    assemble (outMacro 0x001B 0x001A) =
      [0x7001, 0, 0x7002, 0, 0x1210, 0x001B, 0x1220, 0x001A, 0xF000, 2, 0x7120, 0x7110] ∧
    assemble exitMacro = [0xF000, 0] := ⟨rfl, rfl, rfl⟩

/-! ### Load and store (part 2.7) -/

theorem test_ld_mem_base_is_destination :
    sees (exec (.ldMem 1 0 (some 1)) (regMem 0x0100 0x0100 0x0200)) (result 1 0x0200 true true true) = true := by decide
theorem test_ld_reg : sees (exec (.ldReg 1 2) (regs 0 0xBEEF)) (result 1 0xBEEF true true true) = true := by decide
theorem test_st : sees (exec (.st 1 0x0200 none) (regs 7 0)) (fun t => t.mem == [(0x0200, 7)]) = true := by decide
theorem test_st_zero_unlists :
    sees (exec (.st 1 0x0200 none) (regMem 0 0x0200 9)) (fun t => t.mem == []) = true := by decide
theorem test_lad_index_is_destination :
    sees (exec (.lad 1 1 (some 1)) (regs 4 0)) (result 1 5 true true true) = true := by decide
theorem test_lad_above_top :
    traps (regs 5 0) (exec (.lad 1 0xFFFF (some 1)) (regs 5 0)) (.memoryAccess 65540) = true ∧
    sees (exec (.lad 1 0xFFFF (some 1)) { regs 5 0 with params := { eaPolicy := .wrap } })
      (result 1 4 true true true) = true := by decide

/-! ### Arithmetic (part 2.1) -/

theorem test_adda_mem :
    sees (exec (.addaMem 1 0x0100 none) (regMem 0x7FFF 0x0100 0x7FFF)) (result 1 0xFFFE true true false) = true := by
  decide
theorem test_adda_reg :
    sees (exec (.addaReg 1 2) (regs 0x8000 0x8000)) (result 1 0 true false true) = true ∧
    sees (exec (.addaReg 1 1) (regs 0x4000 0)) (result 1 0x8000 true true false) = true := by decide
theorem test_suba_mem :
    sees (exec (.subaMem 1 0x0100 none) (regMem 3 0x0100 5)) (result 1 0xFFFE false true false) = true := by decide
theorem test_suba_reg :
    sees (exec (.subaReg 1 2) (regs 0 0x8000)) (result 1 0x8000 true true false) = true ∧
    sees (exec (.subaReg 1 2) (regs 0xFFFF 0x7FFF)) (result 1 0x8000 false true false) = true := by decide
theorem test_addl_mem :
    sees (exec (.addlMem 1 0x0100 none) (regMem 0xFFFF 0x0100 1)) (result 1 0 false false true) = true := by decide
theorem test_addl_reg_carry :
    sees (exec (.addlReg 1 2) { regs 0xFFFF 2 with params := { unsignedOf := .carry } })
      (result 1 1 true false false) = true := by decide
theorem test_subl_mem :
    sees (exec (.sublMem 1 0x0100 none) (regMem 0 0x0100 1)) (result 1 0xFFFF false true false) = true := by decide
theorem test_subl_reg_borrow :
    sees (exec (.sublReg 1 2) { regs 1 0xFFFF with params := { unsignedOf := .carry } })
      (result 1 2 true false false) = true := by decide

/-! ### Logical (part 2.2) -/

theorem test_and_mem :
    sees (exec (.andMem 1 0x0100 none) (regMem 0xF0F0 0x0100 0xFF00)) (result 1 0xF000 false true false) = true := by
  decide
theorem test_and_reg :
    sees (exec (.andReg 1 2) (regs 0x1234 0)) (result 1 0 false false true) = true := by decide
theorem test_or_mem :
    sees (exec (.orMem 1 0x0100 none) (regMem 0x00F0 0x0100 0x0F00)) (result 1 0x0FF0 false false false) = true := by
  decide
theorem test_or_reg :
    sees (exec (.orReg 1 2) (regs 0x8000 1)) (result 1 0x8001 false true false) = true := by decide
theorem test_xor_mem :
    sees (exec (.xorMem 1 0x0100 none) (regMem 0x1234 0x0100 0xFFFF)) (result 1 0xEDCB false true false) = true := by
  decide
theorem test_xor_reg :
    sees (exec (.xorReg 1 1) (regs 0xABCD 0)) (result 1 0 false false true) = true := by decide

/-! ### Shifts (part 2.3) -/

theorem test_sla :
    sees (exec (.sla 1 2 none) (regs 0x8004 0)) (result 1 0x8010 false true false) = true ∧
    sees (exec (.sla 1 0xFFFF none) (regs 0x8000 0)) (result 1 0x8000 false true false) = true := by decide +kernel
theorem test_sra :
    sees (exec (.sra 1 4 none) (regs 0x8234 0)) (result 1 0xF823 false true false) = true ∧
    sees (exec (.sra 1 16 none) (regs 0xC001 0)) (result 1 0xFFFF false true false) = true := by decide
theorem test_sll :
    sees (exec (.sll 1 1 (some 2)) (regs 0x1234 3)) (result 1 0x2340 false false false) = true ∧
    sees (exec (.sll 1 1 none) (regs 0x8000 0)) (result 1 0 false false true) = true := by decide
theorem test_srl :
    sees (exec (.srl 1 15 none) (regs 0xC001 0)) (result 1 1 false false false) = true ∧
    sees (exec (.srl 1 0 none) (regs 0xC001 0)) (result 1 0xC001 false true false) = true := by decide
theorem test_shift_count_above_top :
    traps (regs 1 0xFFFF) (exec (.srl 1 1 (some 2)) (regs 1 0xFFFF)) (.memoryAccess 65536) = true := by decide

/-! ### Compare (part 2.4) -/

theorem test_cpa_mem :
    sees (exec (.cpaMem 1 0x0100 none) (regMem 0x8000 0x0100 1)) (result 1 0x8000 true false false) = true := by decide
theorem test_cpa_reg :
    sees (exec (.cpaReg 1 2) (regs 0xFFFF 1)) (result 1 0xFFFF false true false) = true := by decide
theorem test_cpl_mem :
    sees (exec (.cplMem 1 0x0100 none) (regMem 0xFFFF 0x0100 1)) (result 1 0xFFFF false true false) = true := by decide
theorem test_cpl_reg :
    sees (exec (.cplReg 1 2) { regs 1 0xFFFF with params := { unsignedOf := .carry } })
      (result 1 1 true false false) = true := by decide

/-! ### Jumps (part 2.5): taken to 0x0100, or falling to 0x0012 -/

theorem test_jmi :
    sees (exec (.jmi 0x0100 none) (flags false true false)) (fun t => t.pr == 0x0100) = true ∧
    sees (exec (.jmi 0x0100 none) (flags true false true)) (fun t => t.pr == 0x0012) = true := by decide
theorem test_jnz :
    sees (exec (.jnz 0x0100 none) (flags true true false)) (fun t => t.pr == 0x0100) = true ∧
    sees (exec (.jnz 0x0100 none) (flags false false true)) (fun t => t.pr == 0x0012) = true := by decide
theorem test_jze :
    sees (exec (.jze 0x0100 none) (flags false false true)) (fun t => t.pr == 0x0100) = true ∧
    traps ((flags false false false).setReg 1 1)
      (exec (.jze 0xFFFF (some 1)) ((flags false false false).setReg 1 1)) (.memoryAccess 65536) = true := by decide
theorem test_jump :
    sees (exec (.jump 0 (some 1)) (regs 0x0100 0)) (fun t => t.pr == 0x0100 && t.steps == 1) = true := by decide
theorem test_jpl :
    sees (exec (.jpl 0x0100 none) (flags true false false)) (fun t => t.pr == 0x0100) = true ∧
    sees (exec (.jpl 0x0100 none) (flags false false true)) (fun t => t.pr == 0x0012) = true := by decide
theorem test_jov :
    sees (exec (.jov 0x0100 none) (flags true false false)) (fun t => t.pr == 0x0100) = true ∧
    sees (exec (.jov 0x0100 none) (flags false true true)) (fun t => t.pr == 0x0012) = true := by decide

/-! ### Stack, call and return (part 2.6) -/

theorem test_push :
    sees (exec (.push 0 (some 7)) (stack 0xFFFE 0 0)) (fun t => t.mem == [(0xFFFD, 0xFFFE)] && t.sp == 0xFFFD) = true ∧
    sees (exec (.push 5 none) (stack 1 0 0)) (fun t => t.mem == [(0, 5)] && t.sp == 0) = true := by decide
theorem test_push_overflow :
    traps (stack 0 0 0) (exec (.push 5 none) (stack 0 0 0)) (.stackFault 0 .overflow) = true := by decide
theorem test_pop :
    sees (exec (.pop 2) (stack 0xFFFE 0xFFFE 0x1234)) (fun t => t.reg 2 == 0x1234 && t.sp == 0xFFFF) = true ∧
    sees (exec (.pop 7) (stack 0xFFFE 0xFFFE 0x1234)) (fun t => t.sp == 0x1234) = true := by decide
theorem test_pop_underflow :
    traps base (exec (.pop 1) base) (.stackFault 0xFFFF .underflow) = true := by decide
theorem test_call :
    sees (exec (.call 0x0100 none) base)
      (fun t => t.mem == [(0xFFFE, 0x0012)] && t.sp == 0xFFFE && t.pr == 0x0100) = true := by decide
theorem test_call_faults :
    traps { base with pr := 0xFFFE } (exec (.call 0x0100 none) { base with pr := 0xFFFE }) (.memoryAccess 65536) = true ∧
    traps (stack 0 0 0) (exec (.call 0x0100 none) (stack 0 0 0)) (.stackFault 0 .overflow) = true := by decide
theorem test_ret :
    sees (exec .ret (stack 0xFFFE 0xFFFE 0x0012)) (fun t => t.pr == 0x0012 && t.sp == 0xFFFF) = true := by decide
theorem test_ret_underflow : traps base (exec .ret base) (.stackFault 0xFFFF .underflow) = true := by decide

/-! ### NOP, SVC and I/O (part 2.8) -/

/-- A device with the line "42", and an IN buffer of 3 words at 0x0100, its length word at 0x0200. -/
def io : State :=
  { regs 0x0100 0x0200 with params := { inMaxLen := 3 }, dev := ⟨[[0x34, 0x32]], .endOfInput, []⟩ }

theorem test_nop : sees (exec .nop base) (fun t => t == { base with pr := 0x0011, steps := 1 }) = true := by decide
theorem test_svc_halt :
    sees (exec (.svc 0 (some 3)) base)
      (fun t => t == { base with run := .haltedNormal, pr := 0x0012, steps := 1 }) = true := by decide
theorem test_svc_in :
    sees (exec (.svc 1 none) io) (fun t =>
      t.mem == [(0x0100, 0x34), (0x0101, 0x32), (0x0102, 0x20), (0x0200, 2)] && t.dev.input == []) = true := by decide
theorem test_svc_out :
    sees (exec (.svc 2 none) { io with mem := [(0x0100, 0x34), (0x0101, 0x32), (0x0200, 2)] })
      (fun t => t.dev.output == [[0x34, 0x32]]) = true := by decide
theorem test_svc_errors :
    traps base (exec (.svc 3 none) base) (.illegalInstruction 0x0010 0xF000) = true ∧
    traps (regs 0xFF01 0x0200) (exec (.svc 1 none) (regs 0xFF01 0x0200)) (.memoryAccess 65536) = true ∧
    traps (regs 0xFF00 0x0200) (exec (.svc 1 none) (regs 0xFF00 0x0200)) .endOfInput = true ∧
    traps { regs 0xFFFF 0x0200 with mem := [(0x0200, 2)] }
      (exec (.svc 2 none) { regs 0xFFFF 0x0200 with mem := [(0x0200, 2)] }) (.memoryAccess 65536) = true := by decide

/-! ### The step (part 2.10) -/

/-- `base` at `pr` with one word of memory. -/
def at_ (pr addr : Nat) (w : Word) : State := { base with pr := pr, mem := base.mem.write addr w }

theorem test_step_nop_at_top : sees (step (at_ 0xFFFF 0 0)) (fun t => t.pr == 65536 && t.steps == 1) = true := by decide
theorem test_step_past_top : traps (at_ 65536 0 0) (step (at_ 65536 0 0)) (.memoryAccess 65536) = true := by decide
theorem test_step_second_word_past_top :
    traps (at_ 0xFFFF 0xFFFF 0x1010) (step (at_ 0xFFFF 0xFFFF 0x1010)) (.memoryAccess 65536) = true := by decide
theorem test_step_illegal_at_top :
    traps (at_ 0xFFFF 0xFFFF 0x0001) (step (at_ 0xFFFF 0xFFFF 0x0001)) (.illegalInstruction 0xFFFF 0x0001) = true := by
  decide

/-- `base` with a step limit that STEPS has reached. -/
def limited : State := { base with steps := 5, params := { stepLimit := some 5 } }

theorem test_step_limit : traps limited (step limited) (.stepLimitExceeded 5) = true := by decide
theorem test_abort_before_limit :
    traps limited (step { limited with host := ⟨[], [true]⟩ }) .aborted = true := by decide
theorem test_start :
    sees (step State.reset) (fun t => t == { State.reset with run := .running, host := ⟨[], []⟩ }) = true := by decide

/-- A load of `LAD GR1,21` and a `DS 1` at 0x0100, with MEM_RESET 0x00AA at the reserved word. -/
def loadArgs : LoadArgs :=
  { image := [.word 0x1210, .word 0x0015, .reserved], loadBase := 0x0100, entry := 0x0100, params := {},
    grReset := #v[1, 2, 3, 4, 5, 6, 7], frReset := ⟨true, false, true⟩, memReset := [(0x0102, 0xAA)] }

/-- R7: LOAD_BASE is 0 and the parameters have their defaults where a load does not give them. -/
theorem test_load_defaults :
    let args : LoadArgs :=
      { image := [], entry := 5, grReset := loadArgs.grReset, frReset := loadArgs.frReset, memReset := [] }
    args.loadBase = 0 ∧ args.params = ⟨0xFFFF, none, false, .never, .fault, 256⟩ := by decide

/-- R290: the state after a load. -/
theorem test_load :
    sees (step { State.reset with run := .haltedNormal, host := ⟨[.load loadArgs], []⟩ }) (fun t =>
      t.run == .ready && t.pr == 0x0100 && t.gr == #v[1, 2, 3, 4, 5, 6, 7, 0xFFFF] && t.fr == ⟨true, false, true⟩ &&
      t.mem == [(0x0100, 0x1210), (0x0101, 0x0015), (0x0102, 0xAA)] && t.steps == 0) = true := by decide

/-- R261, R28: the numbers of a dump: 2 for a stack fault, 6 for end of input, 0 for the normal halt, 5 = OF and ZF. -/
theorem test_codes :
    (RunState.haltedError (.stackFault 0 .overflow)).code = some 2 ∧ (RunState.haltedError .endOfInput).code = some 6 ∧
    RunState.haltedNormal.code = some 0 ∧ Flags.dump ⟨true, false, true⟩ = 5 := by decide

/-- `withFetchWord` from reset: LAD GR1,0x0015 is what the very next step runs. -/
theorem test_withFetchWord :
    sees (step (State.reset.withFetchWord 32 0x00151210)) (fun t => t.reg 1 == 0x0015 && t.pr == 2) = true := by decide

/-! ### Witnesses: for each statement with hypotheses, a state and operands that meet them together; where a statement
has several clauses, one for each, at a boundary of its range -/

theorem witness_EncodedInstructionDecodesToItself : (Instr.ldMem 7 0xFFFF (some 7)).wf = true := rfl

theorem witness_DecodedWordsAreTheEncoding : decode [0x1077, 0xFFFF, 5] = .ok (.ldMem 7 0xFFFF (some 7), [5]) := rfl

theorem witness_AtMostOneRowMatchesAWord :
    (⟨"RET", .N, 0x8100, 0xFFFF⟩ : Row) ∈ opcodeTable ∧ Row.matches ⟨"RET", .N, 0x8100, 0xFFFF⟩ 0x8100 = true := by
  decide

/-- A 1-word instruction in the last word of memory, and a 2-word instruction in the last two. -/
theorem witness_StepRunsTheDecodedInstruction :
    (ReachesFetch (at_ 0xFFFF 0xFFFF 0x1412) ∧ 0xFFFF + (Instr.ldReg 1 2).words ≤ memWords ∧
      decode [(at_ 0xFFFF 0xFFFF 0x1412).mem.read 0xFFFF, (at_ 0xFFFF 0xFFFF 0x1412).mem.read 0x10000] =
        .ok (.ldReg 1 2, [0])) ∧
    (ReachesFetch (at_ 0xFFFE 0xFFFE 0x1010) ∧ 0xFFFE + (Instr.ldMem 1 0 none).words ≤ memWords ∧
      decode [(at_ 0xFFFE 0xFFFE 0x1010).mem.read 0xFFFE, (at_ 0xFFFE 0xFFFE 0x1010).mem.read 0xFFFF] =
        .ok (.ldMem 1 0 none, [])) :=
  ⟨⟨⟨rfl, rfl, rfl⟩, by decide, rfl⟩, ⟨⟨rfl, rfl, rfl⟩, by decide, rfl⟩⟩

theorem witness_AbortIsTakenBeforeEverything :
    ({ base with host := ⟨[], [true]⟩ } : State).run = .running ∧
      abortAsserted ({ base with host := ⟨[], [true]⟩ } : State).host = true := by decide

theorem witness_StepLimitStopsBeforeTheFetch :
    limited.run = .running ∧ abortAsserted limited.host = false ∧ limited.params.stepLimit = some 5 ∧
      5 ≤ limited.steps := by decide

theorem witness_FetchPastTheTopRaisesMemoryAccess :
    (ReachesFetch (at_ 65536 0 0) ∧ (at_ 65536 0 0).pr = 65536) ∧
    (ReachesFetch (at_ 65535 65535 0x1010) ∧
      ∃ i, decodeHead ((at_ 65535 65535 0x1010).mem.read 65535) = .ok (.needsAdr i)) :=
  ⟨⟨⟨rfl, rfl, rfl⟩, rfl⟩, ⟨rfl, rfl, rfl⟩, _, rfl⟩

theorem witness_IllegalFirstWordRaisesIllegalInstruction :
    ReachesFetch (at_ 65535 65535 0x1018) ∧ (at_ 65535 65535 0x1018).pr < memWords ∧
      ∀ row ∈ opcodeTable, row.matches ((at_ 65535 65535 0x1018).mem.read 65535) = false :=
  ⟨⟨rfl, rfl, rfl⟩, by decide, by decide⟩

theorem witness_FailedStepChangesOnlyTheRunState :
    ∃ t, (at_ 65536 0 0).run = .running ∧ step (at_ 65536 0 0) = .next t ∧ t.run = .haltedError (.memoryAccess 65536) :=
  ⟨_, rfl, rfl, rfl⟩

theorem witness_CompletedStepCountsOneInstruction :
    ∃ t, base.run = .running ∧ step base = .next t ∧ t.run = .running :=
  ⟨_, rfl, rfl, rfl⟩

/-- An instruction that falls through, a jump that falls through at the top, and a jump that is taken. -/
theorem witness_PrMovesByTheLengthUnlessControlTransfers :
    (∃ t, exec .nop base = .next t ∧ t.run = .running ∧ transfersControl .nop = false) ∧
    (∃ t, exec (.jump 0xFFFF none) base = .next t ∧ t.run = .running ∧ t.pr = 0xFFFF) ∧
    (∃ t, exec (.jnz 0 none) { base with pr := 0xFFFE } = .next t ∧ t.run = .running ∧ t.pr = 65536) :=
  ⟨⟨_, rfl, rfl, rfl⟩, ⟨_, rfl, rfl, rfl⟩, _, rfl, rfl, rfl⟩

theorem witness_NormalHaltComesOnlyFromServiceZero :
    ∃ t, (at_ 0 0 0xF000).run = .running ∧ step (at_ 0 0 0xF000) = .next t ∧ t.run = .haltedNormal :=
  ⟨_, rfl, rfl, rfl⟩

/-- Both sides occur: a NOP runs, and an IN waits on a device that never answers. -/
theorem witness_EveryInstructionRunsButAWaitingIn :
    (∃ t, exec .nop base = .next t) ∧
      exec (.svc 1 none) { base with dev := ⟨[], .noAnswer, []⟩ } = .fault .waitingForDevice :=
  ⟨⟨_, rfl⟩, rfl⟩

/-- The invariant holds in a running state at PR = 65,536 with the step limit just reached. -/
theorem witness_EveryStepKeepsTheInvariant :
    State.Inv { limited with pr := 65536 } ∧ ∃ t, step { limited with pr := 65536 } = .next t :=
  ⟨⟨rfl, Nat.le_refl _, fun l h => by cases h; exact Nat.le_refl _, fun e h => by cases h⟩, _, rfl⟩

theorem witness_RunEndsWithinTheStepLimit :
    limited.run = .running ∧ limited.params.stepLimit = some 5 ∧ limited.steps ≤ 5 := by decide

theorem witness_TraceHasNoEffect : base.run = .running := rfl

/-- `start()` in Ready, where it starts the run, and in a Halted state, where it does nothing. -/
theorem witness_StartMovesReadyToRunning :
    (State.reset.host.calls = [.start] ∧ State.reset.run ≠ .running) ∧
      (({ State.reset with run := .haltedNormal } : State).host.calls = [.start] ∧
        ({ State.reset with run := .haltedNormal } : State).run ≠ .running) := by decide

theorem witness_NoStepOutsideRunningWithoutAHostCall :
    ({ base with run := .ready } : State).host.calls = [] ∧ ({ base with run := .haltedNormal } : State).host.calls = [] ∧
      ({ base with run := .haltedError .aborted } : State).host.calls = [] := by decide

/-- A halted engine with a load pending, of an image that ends in the last word of memory. -/
def halted : State :=
  { base with run := .haltedNormal, host := ⟨[.load { loadArgs with loadBase := 0xFFFD }], []⟩ }

theorem witness_OnlyALoadLeavesAHaltedState :
    ∃ t, halted.run = .haltedNormal ∧ step halted = .next t ∧ t.run ≠ halted.run :=
  ⟨_, rfl, rfl, by decide⟩

theorem witness_LoadSetsTheWholeState :
    halted.host.calls = [.load { loadArgs with loadBase := 0xFFFD }] ∧ halted.run ≠ .running ∧
      uns (0xFFFD : Word) + loadArgs.image.length ≤ memWords ∧
      loadArgs.image[0]? = some (.word 0x1210) ∧ loadArgs.image[2]? = some .reserved := by decide

theorem witness_OversizeLoadIsRefused :
    memWords < uns (0xFFFE : Word) + loadArgs.image.length ∧ halted.run ≠ .running := by decide

theorem witness_OnlyFlagWritersChangeFlags :
    ∃ t, writesFlags (.pop 1) = false ∧ exec (.pop 1) (stack 0xFFFE 0 0) = .next t :=
  ⟨_, rfl, rfl⟩

theorem witness_OnlyListedRegistersChange :
    ∃ t, exec (.pop 1) (stack 0xFFFE 0xFFFE 7) = .next t ∧ (2 : Reg) ∉ writtenRegs (.pop 1) ∧ t.reg 1 = 7 :=
  ⟨_, rfl, by decide, rfl⟩

/-- An instruction that stores, and one that stores nothing. -/
theorem witness_OnlyListedWordsOfMemoryChange :
    ((regs 7 0).mem.wf = true ∧ ∃ t, exec (.st 1 0xFFFF none) (regs 7 0) = .next t ∧ t.mem.read 0xFFFF = 7) ∧
      ∃ t, exec (.cpaMem 1 0xFFFF none) (regs 7 0) = .next t :=
  ⟨⟨rfl, _, rfl, rfl⟩, _, rfl⟩

theorem witness_OnlySvcReachesTheDevice : ∃ t, exec .nop base = .next t ∧ ∀ adr x, Instr.nop ≠ .svc adr x :=
  ⟨_, rfl, fun _ _ h => by cases h⟩

/-- Operands a half of the range apart, where the sign of CPL's difference stops telling the order, and one nearer. -/
theorem witness_CompareFlagsOrderTheOperands :
    ¬ uns (0x8000 : Word) < uns (0 : Word) + 32768 ∧ uns (0x7FFF : Word) < uns (0 : Word) + 32768 ∧
      uns (0 : Word) < uns (0x7FFF : Word) + 32768 := by decide

theorem witness_ShiftsBitByBit : 15 < 16 ∧ 0 < 16 := by decide

/-- The sums 0xFFFF and 0x10000 with an index register, under each policy, and the sum without one. -/
theorem witness_EffectiveAddressIsTheTestedSum :
    uns (0xFFFE : Word) + uns ((regs 1 0).reg 1) < 65536 ∧ 65536 ≤ uns (0xFFFF : Word) + uns ((regs 1 0).reg 1) ∧
      (regs 1 0).params.eaPolicy = .fault ∧
      ({ regs 1 0 with params := { eaPolicy := .wrap } } : State).params.eaPolicy = .wrap := by decide

theorem witness_EffectiveAddressErrorStopsEveryAddressForm :
    (Instr.jze 0xFFFF (some 1)).addressOperand = some (0xFFFF, some 1) ∧
      memWords ≤ eaSum (regs 1 0) 0xFFFF (some 1) ∧ (regs 1 0).params.eaPolicy = .fault := by decide

/-- The last address of memory by an index register, and the destination register as the index. -/
theorem witness_LoadsWriteTheirRegister : effectiveAddress (regs 1 0) 0xFFFE (some 1) = .ok 0xFFFF := rfl

theorem witness_SignedArithmeticCompletes :
    effectiveAddress (regMem 0x7FFF 0xFFFF 1) 0xFFFF none = .ok 0xFFFF ∧
      (1 : Word) = (regMem 0x7FFF 0xFFFF 1).mem.read (uns (0xFFFF : Word)) := ⟨rfl, rfl⟩

theorem witness_UnsignedArithmeticCompletes :
    effectiveAddress (regMem 0xFFFF 0xFFFF 1) 0xFFFF none = .ok 0xFFFF ∧
      (1 : Word) = (regMem 0xFFFF 0xFFFF 1).mem.read (uns (0xFFFF : Word)) ∧
      UnsignedOfPolicy.never = (regMem 0xFFFF 0xFFFF 1).params.unsignedOf := ⟨rfl, rfl, rfl⟩

theorem witness_LogicalOperationsComplete :
    effectiveAddress (regMem 0xF0F0 0 0xFF00) 0 none = .ok 0 ∧
      (0xFF00 : Word) = (regMem 0xF0F0 0 0xFF00).mem.read (uns (0 : Word)) := ⟨rfl, rfl⟩

theorem witness_ComparesCompleteAndSetFlagsOnly :
    effectiveAddress (regMem 0x8000 0 1) 0 none = .ok 0 ∧
      (1 : Word) = (regMem 0x8000 0 1).mem.read (uns (0 : Word)) := ⟨rfl, rfl⟩

theorem witness_ShiftsComplete : effectiveAddress (regs 1 0xFFFF) 0 (some 2) = .ok 0xFFFF := rfl

theorem witness_JumpsFollowTheirConditions : effectiveAddress (flags true false true) 0xFFFF none = .ok 0xFFFF := rfl

theorem witness_StoreWritesTheWordAtEa :
    base.mem.wf = true ∧ effectiveAddress base 0xFFFF none = .ok 0xFFFF := ⟨rfl, rfl⟩

/-- The kinds of stored word, each where a clause begins: ST of LD GR1,GR2, of LD GR1,adr and of the illegal 0x0001 (P5) at
0xFFFF, PUSH of LD GR1,adr at 0xFFFE, CALL's return address as the second word of LD GR1,adr at 0xFFFD, and an IN. -/
theorem witness_StoredInstructionIsFetched :
    (∃ t u : State, Stores (regs 0x1412 0) (.st 1 0xFFFF none) 0xFFFF 0x1412 ∧
      exec (.st 1 0xFFFF none) (regs 0x1412 0) = .next t ∧ t.steps = 0 + 1 ∧ u.mem.read 0xFFFF = t.mem.read 0xFFFF ∧
      u.pr = 0xFFFF ∧ decodeHead 0x1412 = .ok (.whole (.ldReg 1 2))) ∧
    (∃ t f, Stores (regs 0x1010 0) (.st 1 0xFFFF none) 0xFFFF 0x1010 ∧
      exec (.st 1 0xFFFF none) (regs 0x1010 0) = .next t ∧ t.steps = 0 + 1 ∧ decodeHead 0x1010 = .ok (.needsAdr f)) ∧
    (∃ t e, Stores (regs 1 0) (.st 1 0xFFFF none) 0xFFFF 1 ∧ exec (.st 1 0xFFFF none) (regs 1 0) = .next t ∧
      t.steps = 0 + 1 ∧ decodeHead 1 = .error e) ∧
    (∃ t, Stores base (.push 0x1010 none) 0xFFFE 0x1010 ∧ exec (.push 0x1010 none) base = .next t ∧
      t.steps = 0 + 1) ∧
    (∃ t u : State, ∃ f, Stores base (.call 0 none) 0xFFFE 0x0012 ∧ exec (.call 0 none) base = .next t ∧
      t.steps = 0 + 1 ∧ u.mem.read 0xFFFE = t.mem.read 0xFFFE ∧ u.pr + 1 = 0xFFFE ∧
      decodeHead (u.mem.read u.pr) = .ok (.needsAdr f)) ∧
    (∃ t, Stores io (.svc 1 none) (0x0100 + 2) 0x20 ∧ Stores io (.svc 1 none) 0x0200 2 ∧
      exec (.svc 1 none) io = .next t ∧ t.steps = 0 + 1) :=
  ⟨⟨_, at_ 0xFFFF 0xFFFF 0x1412, .st 1 0xFFFF none 0xFFFF rfl, rfl, rfl, rfl, rfl, rfl⟩,
    ⟨_, _, .st 1 0xFFFF none 0xFFFF rfl, rfl, rfl, rfl⟩,
    ⟨_, _, .st 1 0xFFFF none 0xFFFF rfl, rfl, rfl, rfl⟩,
    ⟨_, .push 0x1010 none 0x1010 rfl (by decide), rfl, rfl⟩,
    ⟨_, { base with pr := 0xFFFD, mem := [(0xFFFD, 0x1010), (0xFFFE, 0x0012)] }, _,
      .call 0 none 0x0012 rfl (by decide), rfl, rfl, rfl, rfl, rfl⟩,
    ⟨_, .inBuffer 1 none rfl [0x34, 0x32] [] rfl 2 (by decide) (by decide),
      .inLength 1 none rfl [0x34, 0x32] [] rfl 2 rfl, rfl, rfl⟩⟩

theorem witness_PushStoresTheEffectiveAddress :
    (stack 1 0 0).mem.wf = true ∧ effectiveAddress (stack 1 0 0) 5 none = .ok 5 ∧ uns (stack 1 0 0).sp ≠ 0 :=
  ⟨rfl, rfl, by decide⟩

theorem witness_PopLoadsTheTopOfTheStack :
    uns (stack 0xFFFE 0 0).sp < uns (stack 0xFFFE 0 0).params.spInit ∧ (0 : Reg) ≠ spReg := by decide

theorem witness_CallPushesTheReturnAddress :
    base.mem.wf = true ∧ effectiveAddress base 0x0100 none = .ok 0x0100 ∧ 0xFFFD + 2 < memWords ∧ uns base.sp ≠ 0 :=
  ⟨rfl, rfl, by decide, by decide⟩

theorem witness_RetPopsThePr : uns (stack 0xFFFE 0 0).sp < uns (stack 0xFFFE 0 0).params.spInit := by decide

theorem witness_PushAndCallFaultInTheirOrder :
    (effectiveAddress (stack 0 0 0) 5 none = .ok 5 ∧ uns (stack 0 0 0).sp = 0 ∧ (stack 0 0 0).pr + 2 < memWords) ∧
    (effectiveAddress { stack 0 0 0 with pr := 0xFFFE } 5 none = .ok 5 ∧
      ({ stack 0 0 0 with pr := 0xFFFE } : State).pr = 0xFFFE) :=
  ⟨⟨rfl, rfl, by decide⟩, rfl, rfl⟩

theorem witness_PopAndRetFaultAtTheCeiling : uns base.params.spInit ≤ uns base.sp := by decide

theorem witness_CallThenRetReturns :
    ∃ t u : State, base.mem.wf = true ∧ effectiveAddress base 0x0100 none = .ok 0x0100 ∧ base.pr + 2 < memWords ∧
      uns base.sp ≠ 0 ∧ uns base.sp ≤ uns base.params.spInit ∧ exec (.call 0x0100 none) base = .next t ∧
      u.sp = t.sp ∧ u.mem.read (uns t.sp) = t.mem.read (uns t.sp) ∧ u.params = t.params :=
  ⟨_, (base.setReg spReg 0xFFFE).setMem [(0xFFFE, 0x0012)], rfl, rfl, by decide, by decide, by decide, rfl, rfl, rfl,
    rfl⟩

theorem witness_SvcZeroHaltsNormally : effectiveAddress base 0 (some 3) = .ok 0 := rfl

/-- A line shorter than the buffer, the buffer ending at the top of memory with the length word inside it. -/
theorem witness_SvcOneReadsALine :
    let s := (io.setReg 1 0xFFFD).setReg 2 0xFFFF
    s.mem.wf = true ∧ effectiveAddress s 1 none = .ok 1 ∧ uns (s.reg 1) + s.params.inMaxLen ≤ 65536 ∧
      s.dev.input = [[0x34, 0x32]] ∧ min [0x34, 0x32].length s.params.inMaxLen < 65536 ∧
      (0 < s.params.inMaxLen ∧ uns (s.reg 1) + 0 ≠ uns (s.reg 2)) ∧ uns (s.reg 2) = uns (s.reg 1) + 2 :=
  ⟨rfl, rfl, by decide, rfl, by decide, by decide, by decide⟩

theorem witness_SvcOneStopsWithoutALine :
    (effectiveAddress (regs 0xFF01 0) 1 none = .ok 1 ∧
      65536 < uns ((regs 0xFF01 0).reg 1) + (regs 0xFF01 0).params.inMaxLen) ∧
    (uns ((regs 0xFF00 0).reg 1) + (regs 0xFF00 0).params.inMaxLen ≤ 65536 ∧
      (regs 0xFF00 0).dev = ⟨[], .endOfInput, []⟩) ∧
    ({ regs 0xFF00 0 with dev := ⟨[], .noAnswer, []⟩ } : State).dev.atEnd = .noAnswer :=
  ⟨⟨rfl, by decide⟩, ⟨by decide, rfl⟩, rfl⟩

theorem witness_SvcTwoWritesALine :
    effectiveAddress (regs 0xFFFE 0x0200) 2 none = .ok 2 ∧
    uns ((regs 0xFFFE 0x0200).reg 1) + uns (Memory.read [(0x0200, 2)] 0x0200) ≤ 65536 ∧
    65536 < uns ((regs 0xFFFE 0x0200).reg 1) + uns (Memory.read [(0x0200, 3)] 0x0200) :=
  ⟨rfl, by decide, by decide⟩

theorem witness_UnknownServiceRaisesIllegalInstruction : effectiveAddress base 3 none = .ok 3 ∧ (3 : Word) ≠ 2 :=
  ⟨rfl, by decide⟩

end Sys2Proof.Machine.Tests
end

section
/-! What a completed instruction does to PR (10_state.md R26; 40_execution_cycle.md R108) and to the flags (10_state.md
R29, R30), read off `Completes`; then the two statements of that family. -/

namespace Sys2Proof.Machine

variable {s t : State} {i : Instr}

/-! ### A jump, taken or not -/

theorem State.jumped_fr (s : State) (taken : Bool) (target : Nat) : (s.jumped taken target).fr = s.fr := by
  cases taken <;> rfl

/-- A jump falls through by its two words, or PR is the effective address, which is a 16-bit value. -/
theorem State.jumped_pr_cases (s : State) (taken : Bool) (ea : Word) :
    (s.jumped taken (uns ea)).pr = s.pr + 2 ∨ (s.jumped taken (uns ea)).pr < memWords := by
  cases taken with
  | false => exact .inl rfl
  | true => exact .inr ea.isLt

/-! ### A completed instruction -/

/-- R108: without a control transfer PR moves by the length. -/
theorem Completes.pr_eq_add_words (h : Completes s i t) (hi : transfersControl i = false) :
    t.pr = s.pr + i.words := by
  cases h with
  | jmi | jnz | jze | jump | jpl | jov | call | ret => cases hi
  | _ => rfl

/-- R26: a target is an effective address or a popped word, both 16 bits wide. -/
theorem Completes.pr_of_transfersControl (h : Completes s i t) (hi : transfersControl i = true) :
    t.pr = s.pr + 2 ∨ t.pr < memWords := by
  cases h with
  | jmi _ _ ea | jnz _ _ ea | jze _ _ ea | jump _ _ ea | jpl _ _ ea | jov _ _ ea => exact s.jumped_pr_cases _ ea
  | call _ _ ea => exact .inr ea.isLt
  | ret => exact .inr (s.mem.read (uns s.sp)).isLt
  | _ => cases hi

/-- R30: outside R29's list the flags are kept. -/
theorem Completes.fr_eq (h : Completes s i t) (hi : writesFlags i = false) : t.fr = s.fr := by
  cases h with
  | nop | ldMem | st | lad | ldReg | push | pop | call | ret | svcHalt | svcIn | svcOut => rfl
  | jmi | jnz | jze | jump | jpl | jov => exact s.jumped_fr _ _
  | _ => cases hi

/-! ### The statements -/

/-- Settles O13: the instruction completed, since the state is no trap entry, and `Completes` says where PR went. -/
theorem prMovesByTheLengthUnlessControlTransfers : Obligations.PrMovesByTheLengthUnlessControlTransfers := by
  intro i s t _ hexec hnoError
  obtain hc | ⟨e, rfl, -⟩ := exec_next hexec
  · exact ⟨hc.pr_eq_add_words, hc.pr_of_transfersControl⟩
  · exact absurd (s.trap_run e) (hnoError e)

/-- Settles O26: a completed instruction outside R29's list keeps the flags, and so does a trap entry. -/
theorem onlyFlagWritersChangeFlags : Obligations.OnlyFlagWritersChangeFlags := by
  intro i s t hi hexec
  obtain hc | ⟨e, rfl, -⟩ := exec_next hexec
  · exact hc.fr_eq hi
  · exact s.trap_fr e

end Sys2Proof.Machine
end

section
/-! What every completed instruction does to the parts of the state that few instructions touch (10_state.md R33;
20_memory.md R51, R55; 40_execution_cycle.md R108, R109), read off `Completes`; then the statement about the device. -/

namespace Sys2Proof.Machine

variable {s t : State} {i : Instr}

/-! ### A jump, taken or not -/

/-- A jump writes PR and counts one instruction; the other fields are the state's. -/
theorem State.jumped_eq (s : State) (taken : Bool) (target : Nat) :
    s.jumped taken target = { s with pr := if taken then target else s.pr + 2, steps := s.steps + 1 } := by
  cases taken <;> rfl

/-! ### A completed instruction -/

/-- R108: one instruction is counted. -/
theorem Completes.steps_eq (h : Completes s i t) : t.steps = s.steps + 1 := by
  cases h with
  | jmi | jnz | jze | jump | jpl | jov => rw [State.jumped_eq]
  | _ => rfl

/-- R7: the launch parameters stand. -/
theorem Completes.params_eq (h : Completes s i t) : t.params = s.params := by
  cases h with
  | jmi | jnz | jze | jump | jpl | jov => rw [State.jumped_eq]
  | _ => rfl

/-- R272: no instruction takes a call of the host or a sample of the abort signal. -/
theorem Completes.host_eq (h : Completes s i t) : t.host = s.host := by
  cases h with
  | jmi | jnz | jze | jump | jpl | jov => rw [State.jumped_eq]
  | _ => rfl

/-- R55: the device is reached through SVC only; so is the counter of draws (log 20). -/
theorem Completes.dev_draws_eq (h : Completes s i t) (hi : ∀ adr x, i ≠ .svc adr x) :
    t.dev = s.dev ∧ t.draws = s.draws := by
  cases h with
  | jmi | jnz | jze | jump | jpl | jov => rw [State.jumped_eq]; exact ⟨rfl, rfl⟩
  | svcHalt adr x | svcIn adr x | svcOut adr x => exact absurd rfl (hi adr x)
  | _ => exact ⟨rfl, rfl⟩

/-- R109: the run goes on, or a service 0 has ended it normally. -/
theorem Completes.run_cases (h : Completes s i t) : t.run = s.run ∨ t.run = .haltedNormal := by
  cases h with
  | jmi | jnz | jze | jump | jpl | jov => rw [State.jumped_eq]; exact .inl rfl
  | svcHalt => exact .inr rfl
  | _ => exact .inl rfl

/-- R26: PR stays an address or the number past the last one, where the instruction lay inside the memory. -/
theorem Completes.pr_le (h : Completes s i t) (hfit : s.pr + i.words ≤ memWords) : t.pr ≤ memWords := by
  cases h with
  | jmi _ _ ea | jnz _ _ ea | jze _ _ ea | jump _ _ ea | jpl _ _ ea | jov _ _ ea =>
    exact (s.jumped_pr_cases _ ea).elim (fun hpr => hpr.trans_le hfit) Nat.le_of_lt
  | call _ _ ea => exact Nat.le_of_lt ea.isLt
  | ret => exact Nat.le_of_lt (s.mem.read (uns s.sp)).isLt
  | _ => exact hfit

/-- Memory stays in its canonical form: ST, PUSH, CALL and an IN write inside the address space, and nothing else
writes (R51). -/
theorem Completes.mem_wf (h : Completes s i t) (hm : s.mem.wf = true) : t.mem.wf = true := by
  cases h with
  | jmi | jnz | jze | jump | jpl | jov => rw [State.jumped_eq]; exact hm
  | st _ _ _ ea => exact Memory.write_wf hm ea.isLt
  | push | call => exact Memory.write_wf hm ((Nat.sub_le _ 1).trans_lt s.sp.isLt)
  | svcIn _ _ _ hb l => exact inWrites_wf hm hb l
  | _ => exact hm

/-! ### The statement -/

/-- Settles O29: `Completes` says what a completed instruction reaches, and a trap entry keeps every field but the run
state. -/
theorem onlySvcReachesTheDevice : Obligations.OnlySvcReachesTheDevice := by
  intro i s t hexec
  obtain hc | ⟨e, rfl, -⟩ := exec_next hexec
  · exact ⟨hc.dev_draws_eq, hc.params_eq, hc.host_eq⟩
  · exact ⟨fun _ => ⟨s.trap_dev e, s.trap_draws e⟩, s.trap_params e, s.trap_host e⟩

end Sys2Proof.Machine
end

section
/-! The word that a decoded instruction was decoded from is that instruction's own first word (30_encoding.md R71 to
R82). -/

namespace Sys2Proof

variable {w : Word} {n : Nat} {h : Head}

/-- `w` is the first word of the instruction that the head stands for, whatever `adr` follows. -/
def Head.HasFirstWord (w : Word) : Head → Prop
  | .whole i => w = firstWord i
  | .needsAdr f => ∀ adr, w = firstWord (f adr)

/-- R71: the three fields of a word are all of it. -/
theorem eq_word1_of_fields {r x : BitVec 4} (hop : (fieldOp w).toNat = n) (hr : fieldR w = r) (hx : fieldX w = x) :
    w = word1 (BitVec.ofNat 8 n) r x := by
  rw [← hop, BitVec.ofNat_toNat, BitVec.setWidth_eq, ← hr, ← hx, word1_fields]

/-! ### The formats (R72) -/

theorem headN_hasFirstWord {i : Instr} (hop : (fieldOp w).toNat = n) (hh : headN w i = .ok h)
    (hi : firstWord i = word1 (BitVec.ofNat 8 n) 0 0) : h.HasFirstWord w := by
  obtain ⟨rfl, hr, hx⟩ := headN_eq_ok hh
  exact (eq_word1_of_fields hop hr hx).trans hi.symm

theorem headRR_hasFirstWord {i : Reg → Reg → Instr} (hop : (fieldOp w).toNat = n) (hh : headRR w i = .ok h)
    (hi : ∀ r1 r2, firstWord (i r1 r2) = word1 (BitVec.ofNat 8 n) (regField r1) (regField r2)) :
    h.HasFirstWord w := by
  obtain ⟨r1, r2, rfl, hr, hx⟩ := headRR_eq_ok hh
  exact (eq_word1_of_fields hop hr hx).trans (hi r1 r2).symm

theorem headR_hasFirstWord {i : Reg → Instr} (hop : (fieldOp w).toNat = n) (hh : headR w i = .ok h)
    (hi : ∀ r, firstWord (i r) = word1 (BitVec.ofNat 8 n) (regField r) 0) : h.HasFirstWord w := by
  obtain ⟨r, rfl, hr, hx⟩ := headR_eq_ok hh
  exact (eq_word1_of_fields hop hr hx).trans (hi r).symm

theorem headRA_hasFirstWord {i : Reg → Word → Option Reg → Instr} (hop : (fieldOp w).toNat = n)
    (hh : headRA w i = .ok h)
    (hi : ∀ r adr x, firstWord (i r adr x) = word1 (BitVec.ofNat 8 n) (regField r) (indexField x)) :
    h.HasFirstWord w := by
  obtain ⟨r, x, rfl, hr, hx, -⟩ := headRA_eq_ok hh
  exact fun adr => (eq_word1_of_fields hop hr hx).trans (hi r adr x).symm

theorem headA_hasFirstWord {i : Word → Option Reg → Instr} (hop : (fieldOp w).toNat = n) (hh : headA w i = .ok h)
    (hi : ∀ adr x, firstWord (i adr x) = word1 (BitVec.ofNat 8 n) 0 (indexField x)) : h.HasFirstWord w := by
  obtain ⟨x, rfl, hr, hx, -⟩ := headA_eq_ok hh
  exact fun adr => (eq_word1_of_fields hop hr hx).trans (hi adr x).symm

/-! ### The opcode map (R80) -/

/-- R82: a word that decodes is the first word of what it decodes to. The cases are the rows of `decodeHead` in their
order, grouped by format; the last is the unknown opcode. -/
theorem decodeHead_hasFirstWord (hh : decodeHead w = .ok h) : h.HasFirstWord w := by
  unfold decodeHead at hh
  split at hh
  case h_1 | h_37 => rename_i hop; exact headN_hasFirstWord hop hh rfl
  case h_5 | h_10 | h_11 | h_12 | h_13 | h_17 | h_18 | h_19 | h_22 | h_23 =>
    rename_i hop; exact headRR_hasFirstWord hop hh fun _ _ => rfl
  case h_35 => rename_i hop; exact headR_hasFirstWord hop hh fun _ => rfl
  case h_2 | h_3 | h_4 | h_6 | h_7 | h_8 | h_9 | h_14 | h_15 | h_16 | h_20 | h_21 | h_24 | h_25 | h_26 | h_27 =>
    rename_i hop; exact headRA_hasFirstWord hop hh fun _ _ _ => rfl
  case h_28 | h_29 | h_30 | h_31 | h_32 | h_33 | h_34 | h_36 | h_38 =>
    rename_i hop; exact headA_hasFirstWord hop hh fun _ _ => rfl
  case h_39 => cases hh

end Sys2Proof
end

section
/-! The invariant of the machine (20_memory.md R50; 40_execution_cycle.md section 2; 60_exceptions.md section 1): what
each way of taking a step does to it; then the statement. -/

namespace Sys2Proof.Machine

variable {s t : State} {i : Instr} {e : RunError}

/-! ### What a step finds at its fetch -/

/-- R102: where the limit does not stop the step, one more instruction may be counted. -/
theorem steps_lt_of_limitReached_none {l : Nat} (h : limitReached s = none) (hl : s.params.stepLimit = some l) :
    s.steps < l := by
  by_contra hge
  have hreached := limitReached_eq_some.mpr ⟨hl, Nat.le_of_not_lt hge⟩
  cases h.symm.trans hreached

/-- The word at PR is the first word of the instruction fetched there. -/
theorem read_pr_of_fetch (h : fetch s = .ok i) : s.mem.read s.pr = firstWord i := by
  obtain ⟨-, hw | ⟨f, hf, rfl⟩⟩ := fetch_ok h
  · exact decodeHead_hasFirstWord hw
  · exact decodeHead_hasFirstWord hf _

/-! ### The recorded error -/

theorem errorExplained_trap (e' : RunError) : ErrorExplained (s.trap e') e ↔ ErrorExplained s e := by
  rcases e with _ | ⟨_, _ | _⟩ | _ | _ | _ | _ <;> rfl

theorem errorExplained_setHost (p : HostPort) : ErrorExplained (s.setHost p) e ↔ ErrorExplained s e := by
  rcases e with _ | ⟨_, _ | _⟩ | _ | _ | _ | _ <;> rfl

/-- R260: a failing fetch names an address past the top, or PR and the word there. -/
theorem errorExplained_of_fetch_error (h : fetch s = .error e) : ErrorExplained s e := by
  obtain ⟨a, ha, rfl⟩ | ⟨hpr, -, rfl⟩ := fetch_error h
  · exact ha
  · exact ⟨rfl, hpr, rfl⟩

/-- R260: a failing instruction records what was so in its state. The word of an unknown service is the one that was
fetched, though the model rebuilds it (log 16). -/
theorem Raises.errorExplained (h : Raises s i e) (hf : fetch s = .ok i) : ErrorExplained s e := by
  cases h with
  | memoryAccess _ a ha => exact ha
  | overflow _ h0 => exact ⟨rfl, h0⟩
  | underflow _ hsp => exact ⟨rfl, hsp⟩
  | unknownService adr x =>
    have hfit : s.pr + 2 ≤ memWords := (fetch_ok hf).1
    exact ⟨rfl, by omega, read_pr_of_fetch hf⟩
  | endOfInput _ _ hi ha => exact ⟨hi, ha⟩

/-! ### The ways of taking a step -/

theorem State.Inv.trap (h : s.Inv) (he : ErrorExplained s e) : (s.trap e).Inv where
  memory := h.memory
  pr := h.pr
  steps := h.steps
  error := by
    rintro _ ⟨⟩
    exact (errorExplained_trap e).mpr he

theorem State.Inv.setHost (h : s.Inv) (p : HostPort) : (s.setHost p).Inv where
  memory := h.memory
  pr := h.pr
  steps := h.steps
  error := fun e he => (errorExplained_setHost p).mpr (h.error e he)

/-- R293: `start()` records no error. -/
theorem State.Inv.start (h : s.Inv) : (start s).Inv := by
  unfold Machine.start
  split
  · exact ⟨h.memory, h.pr, h.steps, nofun⟩
  · exact h
  · exact h
  · exact h

/-- R290: a load that fits replaces the state by one that has counted no instruction and recorded no error. -/
theorem loadedState_inv {args : LoadArgs} (hfit : uns args.loadBase + args.image.length ≤ memWords)
    (p : HostPort) (d : Device) (n : Nat) : (loadedState args p d n).Inv where
  memory := resetMem_wf hfit
  pr := Nat.le_of_lt args.entry.isLt
  steps := fun l _ => Nat.zero_le l
  error := nofun

theorem hostStep_inv (h : s.Inv) (hstep : hostStep s = .next t) : t.Inv := by
  obtain ⟨cs, -, rfl⟩ | ⟨args, cs, -, hfit, rfl⟩ := hostStep_next hstep
  · exact (h.setHost _).start
  · exact loadedState_inv hfit _ _ _

/-- R108, R109: an instruction that completes below the limit, inside the memory. -/
theorem Completes.inv (hc : Completes s i t) (h : s.Inv) (hrun : s.run = .running) (hlim : limitReached s = none)
    (hfit : s.pr + i.words ≤ memWords) : t.Inv where
  memory := hc.mem_wf h.memory
  pr := hc.pr_le hfit
  steps := by
    intro l hl
    rw [hc.params_eq] at hl
    rw [hc.steps_eq]
    exact steps_lt_of_limitReached_none hlim hl
  error := by
    intro e he
    obtain ht | ht := hc.run_cases
    · rw [ht, hrun] at he; cases he
    · rw [ht] at he; cases he

theorem exec_inv (h : s.Inv) (hrun : s.run = .running) (hlim : limitReached s = none) (hf : fetch s = .ok i)
    (hexec : exec i s = .next t) : t.Inv := by
  obtain hc | ⟨e, rfl, hr⟩ := exec_next hexec
  · exact hc.inv h hrun hlim (fetch_ok hf).1
  · exact h.trap (hr.errorExplained hf)

/-- A step of a running engine, in R264's order. -/
theorem step_running_inv (h : s.Inv) (hrun : s.run = .running) (hstep : step s = .next t) : t.Inv := by
  have hs : s.afterSampling.Inv := h.setHost _
  obtain ⟨-, rfl⟩ | ⟨-, l, hl, rfl⟩ | ⟨-, e, hf, rfl⟩ | ⟨⟨-, -, hlim⟩, i, hf, hexec⟩ :=
    step_running_next hrun hstep
  · exact hs.trap trivial
  · obtain ⟨hl, hle⟩ := limitReached_eq_some.mp hl
    exact hs.trap ⟨hl, Nat.le_antisymm (h.steps l hl) hle⟩
  · exact hs.trap ((errorExplained_setHost _).mpr (errorExplained_of_fetch_error hf))
  · exact exec_inv hs hrun hlim hf hexec

/-! ### The statement -/

/-- Settles O16: a running engine takes a step of its own, any other takes the host's next call. -/
theorem everyStepKeepsTheInvariant : Obligations.EveryStepKeepsTheInvariant := by
  intro s t h hstep
  by_cases hrun : s.run = .running
  · exact step_running_inv h hrun hstep
  · exact hostStep_inv h (step_not_running hrun ▸ hstep)

end Sys2Proof.Machine
end

section
/-! A word that an instruction stored stands in memory, and a fetch gives what the words at PR spell (20_memory.md
section 4; 70_reset_and_hazards.md section 3); then the statement about fetching what was stored. -/

namespace Sys2Proof.Machine

variable {s t : State} {i : Instr} {a : Nat} {w : Word}

/-! ### The stored word (R51) -/

/-- R191: a pushed word stands below the old stack pointer. -/
theorem read_pushed (hm : s.mem.wf = true) (v : Word) : (s.pushed v).mem.read (uns s.sp - 1) = v :=
  Memory.read_write_same hm _ v

/-- R233: a count of stored codes that is a 16-bit value is the length word. -/
theorem lengthWord_eq {n : Word} {l : Line} (hn : uns n = min l.length s.params.inMaxLen) : lengthWord s l = n := by
  have hlen : (storedCodes s.params.inMaxLen l).length = uns n := by
    rw [hn, storedCodes, List.length_take, Nat.min_comm]
  have hlt : uns n < memWords := n.isLt
  simp only [lengthWord, hlen, if_pos hlt, trunc16, BitVec.ofInt_natCast, BitVec.ofNat_toNat, BitVec.setWidth_eq]

/-- R233: a word of the buffer that the length word did not replace is the line's code or a space. -/
theorem read_inWrites_buffer (hm : s.mem.wf = true) (hb : uns (s.reg 1) + s.params.inMaxLen ≤ memWords) (l : Line)
    {k : Nat} (hk : k < s.params.inMaxLen) (hne : uns (s.reg 1) + k ≠ uns (s.reg 2)) :
    (inWrites s l).read (uns (s.reg 1) + k) = if k < l.length then l.getD k 0 else padCode := by
  have hin : uns (s.reg 1) ≤ uns (s.reg 1) + k ∧ uns (s.reg 1) + k < uns (s.reg 1) + s.params.inMaxLen := by omega
  rw [read_inWrites hm hb, if_neg hne, if_pos hin, Nat.add_sub_cancel_left, paddedLine_getD hk]

/-- A service 1 that completed is an IN: its buffer fits and the device's next line was stored in it. -/
theorem Completes.mem_of_svcIn {adr : Word} {x : Option Reg} {l : Line} {rest : List Line}
    (hc : Completes s (.svc adr x) t) (h : effectiveAddress s adr x = .ok 1) (hi : s.dev.input = l :: rest) :
    uns (s.reg 1) + s.params.inMaxLen ≤ memWords ∧ t.mem = inWrites s l := by
  cases hc with
  | svcHalt _ _ h' | svcOut _ _ h' => cases h.symm.trans h'
  | svcIn _ _ _ hb l' rest' hi' =>
    cases hi.symm.trans hi'
    exact ⟨hb, rfl⟩

/-- The instruction that completed left the word at its address, which is inside the memory. -/
theorem Completes.read_stored (hc : Completes s i t) (hm : s.mem.wf = true) (hs : Stores s i a w) :
    a < memWords ∧ t.mem.read a = w := by
  have hsp : uns s.sp - 1 < memWords := (Nat.sub_le _ 1).trans_lt s.sp.isLt
  cases hs with
  | st r adr x ea h =>
    cases hc with
    | st _ _ _ ea' h' =>
      cases h.symm.trans h'
      exact ⟨ea.isLt, Memory.read_write_same hm _ _⟩
  | push adr x ea h =>
    cases hc with
    | push _ _ ea' h' =>
      cases h.symm.trans h'
      exact ⟨hsp, read_pushed hm _⟩
  | call adr x _ hback =>
    cases hc with
    | call =>
      have hword : BitVec.ofNat 16 (s.pr + 2) = w := by rw [← hback, BitVec.ofNat_toNat, BitVec.setWidth_eq]
      exact ⟨hsp, hword ▸ read_pushed hm _⟩
  | inBuffer adr x h l rest hi k hk hne =>
    obtain ⟨hb, ht⟩ := hc.mem_of_svcIn h hi
    exact ⟨by omega, ht ▸ read_inWrites_buffer hm hb l hk hne⟩
  | inLength adr x h l rest hi n hn =>
    obtain ⟨hb, ht⟩ := hc.mem_of_svcIn h hi
    exact ⟨(s.reg 2).isLt, by rw [ht, read_inWrites hm hb, if_pos rfl, lengthWord_eq hn]⟩

/-! ### The fetch of a stored word (R103 to R105) -/

/-- Inside the memory a fetch begins with the word at PR. -/
theorem memRead_pr (hpr : s.pr < memWords) : memRead s s.pr = .ok (s.mem.read s.pr) := by
  rw [memRead, if_neg (Nat.not_le.mpr hpr)]

theorem fetch_of_whole (hpr : s.pr < memWords) (h : decodeHead (s.mem.read s.pr) = .ok (.whole i)) :
    fetch s = .ok i := by
  rw [fetch, memRead_pr hpr, ok_bind, h]

theorem fetch_of_illegal {r : Reject} (hpr : s.pr < memWords) (h : decodeHead (s.mem.read s.pr) = .error r) :
    fetch s = .error (.illegalInstruction s.pr (s.mem.read s.pr)) := by
  rw [fetch, memRead_pr hpr, ok_bind, h]

/-- A 2-word instruction takes the word after PR as its address, or there is no such word. -/
theorem fetch_of_needsAdr {f : Word → Instr} (hpr : s.pr < memWords)
    (h : decodeHead (s.mem.read s.pr) = .ok (.needsAdr f)) :
    fetch s = if memWords ≤ s.pr + 1 then .error (.memoryAccess (s.pr + 1))
      else .ok (f (s.mem.read (s.pr + 1))) := by
  rw [fetch, memRead_pr hpr, ok_bind, h]
  dsimp only
  rw [memRead]
  split <;> rfl

/-! ### The statement -/

/-- Settles O40: the instruction completed, since it counted a step, so that the word stands at its address; what a
fetch gives there is the case of `decodeHead`. -/
theorem storedInstructionIsFetched : Obligations.StoredInstructionIsFetched := by
  intro s t u i a w hm hs hexec hsteps hu
  obtain hc | ⟨e, rfl, -⟩ := exec_next hexec
  · obtain ⟨ha, hw⟩ := hc.read_stored hm hs
    obtain rfl : u.mem.read a = w := hu.trans hw
    refine ⟨hw, ?_, ?_⟩
    · rintro rfl
      refine ⟨fun j hj => fetch_of_whole ha hj, fun f hf htop => ?_, fun f hf htop => ?_,
        fun r hr => fetch_of_illegal ha hr⟩
      · have hsecond : ¬ memWords ≤ u.pr + 1 := by simp only [memWords] at ha ⊢; omega
        rw [fetch_of_needsAdr ha hf, if_neg hsecond]
      · have hpast : memWords ≤ u.pr + 1 := Nat.le_of_eq (congrArg (· + 1) htop.symm)
        rw [fetch_of_needsAdr ha hf, if_pos hpast, htop]
    · rintro rfl f hf
      rw [fetch_of_needsAdr (Nat.lt_of_succ_lt ha) hf, if_neg (Nat.not_le.mpr ha)]
  · rw [State.trap_steps] at hsteps
    omega

end Sys2Proof.Machine
end

section
/-! Decoding and encoding are inverse (30_encoding.md R70 to R82): what `decode` does with each kind of head, what the
words of each format decode to, and which address operand a decoded instruction has; then the two statements of that
family. -/

namespace Sys2Proof

variable {w : Word} {op : BitVec 8} {h : Head} {i : Instr} {ws rest : List Word}

/-! ### The words of an instruction (R70, R73, R104) -/

theorem encode_of_addressOperand_none (hi : i.addressOperand = none) : encode i = [firstWord i] := by
  rw [encode, hi]

theorem encode_of_addressOperand_some {adr : Word} {x : Option Reg} (hi : i.addressOperand = some (adr, x)) :
    encode i = [firstWord i, adr] := by
  rw [encode, hi]

theorem wf_of_addressOperand_none (hi : i.addressOperand = none) : i.wf = true := by
  rw [Instr.wf, hi]

theorem wf_of_addressOperand_some {adr : Word} {x : Option Reg} (hi : i.addressOperand = some (adr, x)) :
    i.wf = indexOk x := by
  rw [Instr.wf, hi]

theorem decode_of_whole (hw : decodeHead w = .ok (.whole i)) : decode (w :: rest) = .ok (i, rest) := by
  rw [decode, hw]

theorem decode_of_needsAdr {f : Word → Instr} (hw : decodeHead w = .ok (.needsAdr f)) (adr : Word) :
    decode (w :: adr :: rest) = .ok (f adr, rest) := by
  rw [decode, hw]

/-- The inversion of `decode`: word 1 is a whole instruction, or word 2 is the `adr` that it needs. -/
theorem decode_eq_ok (hd : decode ws = .ok (i, rest)) :
    ∃ w, (decodeHead w = .ok (.whole i) ∧ ws = w :: rest) ∨
      ∃ f adr, decodeHead w = .ok (.needsAdr f) ∧ i = f adr ∧ ws = w :: adr :: rest := by
  unfold decode at hd
  split at hd
  · cases hd
  · rename_i w _
    split at hd
    · cases hd
    · cases hd; exact ⟨w, .inl ⟨‹_›, rfl⟩⟩
    · split at hd
      · cases hd
      · cases hd; exact ⟨w, .inr ⟨_, _, ‹_›, rfl, rfl⟩⟩

/-! ### The formats (R72): where the opcode map sends `op` to a format and an instruction, that format's words decode to
that instruction -/

theorem decode_formatN (hrow : ∀ w, fieldOp w = op → decodeHead w = headN w i) :
    decode (word1 op 0 0 :: rest) = .ok (i, rest) :=
  decode_of_whole ((hrow _ (fieldOp_word1 _ _ _)).trans (headN_word1 op i))

theorem decode_formatRR {i : Reg → Reg → Instr} (hrow : ∀ w, fieldOp w = op → decodeHead w = headRR w i)
    (r1 r2 : Reg) :
    decode (word1 op (regField r1) (regField r2) :: rest) = .ok (i r1 r2, rest) :=
  decode_of_whole ((hrow _ (fieldOp_word1 _ _ _)).trans (headRR_word1 op r1 r2 i))

theorem decode_formatR {i : Reg → Instr} (hrow : ∀ w, fieldOp w = op → decodeHead w = headR w i) (r : Reg) :
    decode (word1 op (regField r) 0 :: rest) = .ok (i r, rest) :=
  decode_of_whole ((hrow _ (fieldOp_word1 _ _ _)).trans (headR_word1 op r i))

theorem decode_formatRA {i : Reg → Word → Option Reg → Instr}
    (hrow : ∀ w, fieldOp w = op → decodeHead w = headRA w i) (r : Reg) (adr : Word) {x : Option Reg}
    (hx : indexOk x = true) :
    decode (word1 op (regField r) (indexField x) :: adr :: rest) = .ok (i r adr x, rest) :=
  decode_of_needsAdr ((hrow _ (fieldOp_word1 _ _ _)).trans (headRA_word1 op r hx i)) adr

theorem decode_formatA {i : Word → Option Reg → Instr} (hrow : ∀ w, fieldOp w = op → decodeHead w = headA w i)
    (adr : Word) {x : Option Reg} (hx : indexOk x = true) :
    decode (word1 op 0 (indexField x) :: adr :: rest) = .ok (i adr x, rest) :=
  decode_of_needsAdr ((hrow _ (fieldOp_word1 _ _ _)).trans (headA_word1 op hx i)) adr

/-! ### The address operand of a decoded instruction (R76, R77) -/

/-- The instruction that the head stands for has the word after it as its `adr`, with an index register that is not
GR0, or it has no address operand. -/
def Head.HasAddressOperand : Head → Prop
  | .whole i => i.addressOperand = none
  | .needsAdr f => ∃ x, indexOk x = true ∧ ∀ adr, (f adr).addressOperand = some (adr, x)

/-- The cases are the rows of `decodeHead` in their order, grouped by format; the last is the unknown opcode. -/
theorem decodeHead_hasAddressOperand (hh : decodeHead w = .ok h) : h.HasAddressOperand := by
  unfold decodeHead at hh
  split at hh
  case h_1 | h_37 => obtain ⟨rfl, -⟩ := headN_eq_ok hh; rfl
  case h_5 | h_10 | h_11 | h_12 | h_13 | h_17 | h_18 | h_19 | h_22 | h_23 =>
    obtain ⟨_, _, rfl, -⟩ := headRR_eq_ok hh; rfl
  case h_35 => obtain ⟨_, rfl, -⟩ := headR_eq_ok hh; rfl
  case h_2 | h_3 | h_4 | h_6 | h_7 | h_8 | h_9 | h_14 | h_15 | h_16 | h_20 | h_21 | h_24 | h_25 | h_26 | h_27 =>
    obtain ⟨_, x, rfl, -, -, hx⟩ := headRA_eq_ok hh; exact ⟨x, hx, fun _ => rfl⟩
  case h_28 | h_29 | h_30 | h_31 | h_32 | h_33 | h_34 | h_36 | h_38 =>
    obtain ⟨x, rfl, -, -, hx⟩ := headA_eq_ok hh; exact ⟨x, hx, fun _ => rfl⟩
  case h_39 => cases hh

/-! ### The statements -/

/-- Settles O1: the instructions grouped by format; in each case the format's words decode to the instruction, since its
row of the opcode map is that format. -/
theorem encodedInstructionDecodesToItself : Obligations.EncodedInstructionDecodesToItself := by
  intro i rest hwf
  cases i with
  | nop | ret => exact decode_formatN fun _ hop => by rw [decodeHead, hop]; rfl
  | ldReg r1 r2 | addaReg r1 r2 | subaReg r1 r2 | addlReg r1 r2 | sublReg r1 r2 | andReg r1 r2 | orReg r1 r2
  | xorReg r1 r2 | cpaReg r1 r2 | cplReg r1 r2 =>
    exact decode_formatRR (fun _ hop => by rw [decodeHead, hop]; rfl) r1 r2
  | pop r => exact decode_formatR (fun _ hop => by rw [decodeHead, hop]; rfl) r
  | ldMem r adr x | st r adr x | lad r adr x | addaMem r adr x | subaMem r adr x | addlMem r adr x | sublMem r adr x
  | andMem r adr x | orMem r adr x | xorMem r adr x | cpaMem r adr x | cplMem r adr x | sla r adr x | sra r adr x
  | sll r adr x | srl r adr x =>
    exact decode_formatRA (fun _ hop => by rw [decodeHead, hop]; rfl) r adr hwf
  | jmi adr x | jnz adr x | jze adr x | jump adr x | jpl adr x | jov adr x | push adr x | call adr x | svc adr x =>
    exact decode_formatA (fun _ hop => by rw [decodeHead, hop]; rfl) adr hwf

/-- Settles O2: word 1 is the decoded instruction's own first word, and word 2 was read exactly where the instruction
has an address operand, as its `adr`. -/
theorem decodedWordsAreTheEncoding : Obligations.DecodedWordsAreTheEncoding := by
  intro ws i rest hd
  obtain ⟨w, ⟨hw, rfl⟩ | ⟨f, adr, hw, rfl, rfl⟩⟩ := decode_eq_ok hd
  · have hnone : i.addressOperand = none := decodeHead_hasAddressOperand hw
    have hfirst : w = firstWord i := decodeHead_hasFirstWord hw
    exact ⟨wf_of_addressOperand_none hnone, by rw [encode_of_addressOperand_none hnone, hfirst]; rfl⟩
  · obtain ⟨x, hx, hadr⟩ := decodeHead_hasAddressOperand hw
    have hfirst : w = firstWord (f adr) := decodeHead_hasFirstWord hw adr
    exact ⟨(wf_of_addressOperand_some (hadr adr)).trans hx,
      by rw [encode_of_addressOperand_some (hadr adr), hfirst]; rfl⟩

end Sys2Proof
end

section
/-! The step that reaches its fetch (40_execution_cycle.md section 2): what the fetch gives where the words at PR decode
and where it leaves the memory; then the two statements of that family. -/

namespace Sys2Proof.Machine

variable {s : State} {i : Instr} {e : RunError}

/-! ### The fetch (R103 to R105) -/

/-- R105: `decode` and the fetch read the same words, where all the words of the instruction are inside the memory. -/
theorem fetch_of_decode {rest : List Word} (hfit : s.pr + i.words ≤ memWords)
    (hd : decode [s.mem.read s.pr, s.mem.read (s.pr + 1)] = .ok (i, rest)) : fetch s = .ok i := by
  obtain ⟨w, ⟨hw, hws⟩ | ⟨f, adr, hf, rfl, hws⟩⟩ := decode_eq_ok hd
  · obtain ⟨rfl, -⟩ := List.cons.inj hws
    rw [decodeHead_whole_words hw] at hfit
    exact fetch_of_whole hfit hw
  · obtain ⟨rfl, htail⟩ := List.cons.inj hws
    obtain ⟨rfl, -⟩ := List.cons.inj htail
    rw [decodeHead_needsAdr_words hf] at hfit
    rw [fetch_of_needsAdr (Nat.lt_of_succ_lt hfit) hf, if_neg (Nat.not_le.mpr hfit)]

/-- R103: with PR past the top there is no word 1 to fetch. -/
theorem fetch_of_pr_past_top (hpr : memWords ≤ s.pr) : fetch s = .error (.memoryAccess s.pr) := by
  rw [fetch, memRead, if_pos hpr]
  rfl

/-! ### The step after its fetch (R106, R110, R263) -/

theorem step_of_fetch_ok (h : ReachesFetch s) (hf : fetch s = .ok i) : step s = exec i s.afterSampling := by
  rw [step_of_reachesFetch h, hf]

theorem trapsWith_trap (s : State) (e : RunError) : TrapsWith s (.next (s.trap e)) e :=
  ⟨s.trap e, rfl, s.trap_run e, s.trap_gr e, s.trap_pr e, s.trap_fr e, s.trap_mem e, s.trap_steps e, s.trap_params e,
    s.trap_host e, s.trap_dev e, s.trap_draws e⟩

theorem step_trapsWith_of_fetch_error (h : ReachesFetch s) (hf : fetch s = .error e) :
    TrapsWith s.afterSampling (step s) e := by
  rw [step_of_reachesFetch h, hf]
  exact trapsWith_trap _ e

/-! ### The statements -/

/-- Settles O6: the fetch gives the instruction that the words at PR decode to, and the step runs it. -/
theorem stepRunsTheDecodedInstruction : Obligations.StepRunsTheDecodedInstruction :=
  fun _ _ _ hreach hfit hd => step_of_fetch_ok hreach (fetch_of_decode hfit hd)

/-- Settles O9: word 1 is missing at PR = 65,536; at PR = 65,535 word 1 asks for a word 2, which is missing. -/
theorem fetchPastTheTopRaisesMemoryAccess : Obligations.FetchPastTheTopRaisesMemoryAccess := by
  intro s hreach
  refine ⟨fun hpr => ?_, fun hpr ⟨f, hf⟩ => ?_⟩
  · have hfetch : fetch s = .error (.memoryAccess 65536) := hpr ▸ fetch_of_pr_past_top (Nat.le_of_eq hpr.symm)
    exact step_trapsWith_of_fetch_error hreach hfetch
  · have hlast : s.pr < memWords := by rw [hpr]; decide
    have hpast : memWords ≤ s.pr + 1 := by rw [hpr]; decide
    have hfetch : fetch s = .error (.memoryAccess 65536) := by
      rw [fetch_of_needsAdr hlast (hpr ▸ hf), if_pos hpast, hpr]
    exact step_trapsWith_of_fetch_error hreach hfetch

end Sys2Proof.Machine
end

section
/-! The sums and differences of addition and subtraction with their flags (41_arithmetic.md R120 to R124): each result
is the library's sum or difference of words, OF of a signed operation is the library's signed overflow, and SF and ZF
are read off the result (00_scope.md R11); then the three statements about them. -/

namespace Sys2Proof.Machine

/-! ### A result with its flags (R11) -/

@[simp] theorem withSZ_res (res : Word) (overflow : Bool) : (withSZ res overflow).res = res := rfl
@[simp] theorem withSZ_OF (res : Word) (overflow : Bool) : (withSZ res overflow).fr.OF = overflow := rfl
@[simp] theorem withSZ_SF (res : Word) (overflow : Bool) : (withSZ res overflow).fr.SF = res.getLsbD 15 := rfl

theorem withSZ_ZF_iff (res : Word) (overflow : Bool) : (withSZ res overflow).fr.ZF = true ↔ res = 0 := beq_iff_eq

/-! ### Overflow as a range (R120 to R124) -/

theorem signedOverflow_iff (n : Int) : signedOverflow n = true ↔ n < -32768 ∨ 32767 < n := by
  simp only [signedOverflow, Bool.or_eq_true, decide_eq_true_eq]

theorem unsignedOverflow_iff (p : UnsignedOfPolicy) (n : Int) :
    unsignedOverflow p n = true ↔ p = .carry ∧ (n < 0 ∨ 65535 < n) := by
  cases p with
  | never => simp [unsignedOverflow]
  | carry => simp [unsignedOverflow]

/-! ### Truncation to a word (R9) -/

theorem trunc16_add (m n : Int) : trunc16 (m + n) = trunc16 m + trunc16 n := BitVec.ofInt_add m n

theorem trunc16_sub (m n : Int) : trunc16 (m - n) = trunc16 m - trunc16 n := by
  apply BitVec.eq_of_toInt_eq
  simp only [trunc16, BitVec.toInt_sub, BitVec.toInt_ofInt, Int.sub_bmod_bmod, Int.bmod_sub_bmod]

theorem trunc16_uns (a : Word) : trunc16 (uns a) = a := by
  rw [trunc16, BitVec.ofInt_natCast, BitVec.ofNat_toNat, BitVec.setWidth_eq]

/-! ### The results: the signed and the unsigned reading give the same word -/

theorem addA_res (a b : Word) : (addA a b).res = a + b := by
  simp only [addA, withSZ_res, trunc16_add, sgn, BitVec.ofInt_toInt]

theorem subA_res (a b : Word) : (subA a b).res = a - b := by
  simp only [subA, withSZ_res, trunc16_sub, sgn, BitVec.ofInt_toInt]

theorem addL_res (p : UnsignedOfPolicy) (a b : Word) : (addL p a b).res = a + b := by
  rw [addL, withSZ_res, trunc16_add, trunc16_uns, trunc16_uns]

theorem subL_res (p : UnsignedOfPolicy) (a b : Word) : (subL p a b).res = a - b := by
  rw [subL, withSZ_res, trunc16_sub, trunc16_uns, trunc16_uns]

/-! ### Signed overflow by the sign bits (R120, R122) -/

theorem addA_OF_eq_saddOverflow (a b : Word) : (addA a b).fr.OF = a.saddOverflow b := by
  rw [addA, withSZ_OF, Bool.eq_iff_iff, signedOverflow_iff]
  simp only [sgn, BitVec.saddOverflow, Bool.or_eq_true, decide_eq_true_eq]
  omega

theorem subA_OF_eq_ssubOverflow (a b : Word) : (subA a b).fr.OF = a.ssubOverflow b := by
  rw [subA, withSZ_OF, Bool.eq_iff_iff, signedOverflow_iff]
  simp only [sgn, BitVec.ssubOverflow, Bool.or_eq_true, decide_eq_true_eq]
  omega

theorem addA_OF_iff_bit15 (a b : Word) :
    (addA a b).fr.OF = true ↔ a.getLsbD 15 = b.getLsbD 15 ∧ (addA a b).res.getLsbD 15 ≠ a.getLsbD 15 := by
  rw [addA_OF_eq_saddOverflow, BitVec.saddOverflow_eq, addA_res]
  simp only [BitVec.msb_eq_getLsbD_last, Nat.reduceSub, Bool.and_eq_true, beq_iff_eq, Bool.not_eq_true',
    beq_eq_false_iff_ne]

theorem subA_OF_iff_bit15 (a b : Word) :
    (subA a b).fr.OF = true ↔ a.getLsbD 15 ≠ b.getLsbD 15 ∧ (subA a b).res.getLsbD 15 ≠ a.getLsbD 15 := by
  rw [subA_OF_eq_ssubOverflow, BitVec.ssubOverflow_eq, subA_res]
  simp only [BitVec.msb_eq_getLsbD_last, Nat.reduceSub]
  cases a.getLsbD 15 <;> cases b.getLsbD 15 <;> simp

/-! ### Carry and borrow (R121, R123) -/

theorem addL_OF_iff (p : UnsignedOfPolicy) (a b : Word) :
    (addL p a b).fr.OF = true ↔ p = .carry ∧ 65535 < uns a + uns b := by
  have hcarry : ((uns a : Int) + uns b < 0 ∨ 65535 < (uns a : Int) + uns b) ↔ 65535 < uns a + uns b := by omega
  rw [addL, withSZ_OF, unsignedOverflow_iff, hcarry]

theorem subL_OF_iff (p : UnsignedOfPolicy) (a b : Word) :
    (subL p a b).fr.OF = true ↔ p = .carry ∧ uns a < uns b := by
  have hlt : uns a < 65536 := a.isLt
  have hborrow : ((uns a : Int) - uns b < 0 ∨ 65535 < (uns a : Int) - uns b) ↔ uns a < uns b := by omega
  rw [subL, withSZ_OF, unsignedOverflow_iff, hborrow]

theorem uns_sub (a b : Word) : (uns (a - b) : Int) = ((uns a : Int) - uns b) % 65536 := by
  have hlt : b.toNat < 65536 := b.isLt
  simp only [uns, BitVec.toNat_sub]
  omega

/-! ### The statements -/

/-- Settles O30: OF is the library's signed overflow of a sum, which has both forms, by range and by bit 15. -/
theorem signedAddResultAndFlags : Obligations.SignedAddResultAndFlags :=
  fun a b => ⟨rfl, signedOverflow_iff _, addA_OF_iff_bit15 a b, rfl, withSZ_ZF_iff _ _⟩

/-- Settles O31: OF is the library's signed overflow of a difference, which has both forms, by range and by bit 15. -/
theorem signedSubtractResultAndFlags : Obligations.SignedSubtractResultAndFlags :=
  fun a b => ⟨rfl, signedOverflow_iff _, subA_OF_iff_bit15 a b, rfl, withSZ_ZF_iff _ _⟩

/-- Settles O32: the results are the sum and the difference of words, and OF is the carry and the borrow. -/
theorem unsignedAddAndSubtractResultAndFlags : Obligations.UnsignedAddAndSubtractResultAndFlags := by
  intro p a b
  have hsum : uns (addL p a b).res = (uns a + uns b) % 65536 := by rw [addL_res]; exact BitVec.toNat_add a b
  have hdiff : (uns (subL p a b).res : Int) = ((uns a : Int) - uns b) % 65536 := by rw [subL_res]; exact uns_sub a b
  exact ⟨hsum, addL_OF_iff p a b, rfl, withSZ_ZF_iff _ _, hdiff, subL_OF_iff p a b, rfl, withSZ_ZF_iff _ _⟩

end Sys2Proof.Machine
end

section
/-! What the instructions of the shapes `aluMem` and `aluReg` complete in (41_arithmetic.md R125 to R132): one register
and the flags written, PR moved by the length, the rest kept; then the two statements about ADDA, SUBA, ADDL and SUBL. -/

namespace Sys2Proof.Machine

/-- The frame of a write of one register and the flags, followed by the move of PR (R108). -/
theorem writesReg_setReg_setFlags (s : State) (r : Reg) (v : Word) (f : Flags) (len : Nat) :
    WritesReg s (.next (((s.setReg r v).setFlags f).advance len)) r v f len :=
  ⟨_, rfl, s.setReg_reg_same r v, rfl, rfl,
    fun _ hq => s.setReg_reg_other (List.mem_singleton.not.mp hq) v, fun _ => rfl, ⟨rfl, rfl, rfl, rfl, rfl, rfl⟩⟩

/-- Once the effective address is computed the memory form completes: a 16-bit address is inside the memory. -/
theorem aluMem_writesReg {s : State} {adr : Word} {x : Option Reg} {ea : Word} (hea : effectiveAddress s adr x = .ok ea)
    (op : Word → Word → Alu) (r : Reg) :
    WritesReg s (aluMem op r adr x s) r (op (s.reg r) (s.mem.read (uns ea))).res
      (op (s.reg r) (s.mem.read (uns ea))).fr 2 := by
  rw [aluMem, memOperand_eq, hea]
  exact writesReg_setReg_setFlags s r _ _ 2

theorem aluReg_writesReg (s : State) (op : Word → Word → Alu) (r1 r2 : Reg) :
    WritesReg s (aluReg op r1 r2 s) r1 (op (s.reg r1) (s.reg r2)).res (op (s.reg r1) (s.reg r2)).fr 1 :=
  writesReg_setReg_setFlags s r1 _ _ 1

/-! ### The statements -/

/-- Settles O41: ADDA and SUBA are the two shapes at `addA` and at `subA`. -/
theorem signedArithmeticCompletes : Obligations.SignedArithmeticCompletes := by
  refine ⟨?_, ?_⟩
  · rintro s r adr x ea _ hea rfl
    exact ⟨aluMem_writesReg hea addA r, aluMem_writesReg hea subA r⟩
  · rintro s r1 r2 _ _ rfl rfl
    exact ⟨aluReg_writesReg s addA r1 r2, aluReg_writesReg s subA r1 r2⟩

/-- Settles O42: ADDL and SUBL are the two shapes at `addL` and at `subL`, under the policy that the state holds. -/
theorem unsignedArithmeticCompletes : Obligations.UnsignedArithmeticCompletes := by
  refine ⟨?_, ?_⟩
  · rintro s r adr x ea _ _ hea rfl rfl
    exact ⟨aluMem_writesReg hea (addL _) r, aluMem_writesReg hea (subL _) r⟩
  · rintro s r1 r2 _ _ _ rfl rfl rfl
    exact ⟨aluReg_writesReg s (addL _) r1 r2, aluReg_writesReg s (subL _) r1 r2⟩

end Sys2Proof.Machine
end

section
/-! PROOFS. The logical operations (42_logical.md R140 to R146): the flags of `logical` for every result, and the
shared shapes of Machine/Shapes.lean at a logical operation. -/

namespace Sys2Proof.Machine

/-! ### The flags (R140) -/

/-- R140: the three flags of a logical result. -/
theorem logical_flags (res : Word) :
    (logical res).fr.OF = false ∧ (logical res).fr.SF = res.getLsbD 15 ∧ ((logical res).fr.ZF = true ↔ res = 0) :=
  ⟨withSZ_OF res false, withSZ_SF res false, withSZ_ZF_iff res false⟩

/-! ### The two forms (R141 to R146) -/

/-- The memory form of the bitwise operation `op` writes GR[r] with its result. -/
theorem aluMem_logical_writesReg {s : State} {adr : Word} {x : Option Reg} {ea : Word}
    (hea : effectiveAddress s adr x = .ok ea) (op : Word → Word → Word) (r : Reg) :
    WritesReg s (aluMem (fun a v => logical (op a v)) r adr x s) r (op (s.reg r) (s.mem.read (uns ea)))
      (logical (op (s.reg r) (s.mem.read (uns ea)))).fr 2 :=
  aluMem_writesReg hea (fun a v => logical (op a v)) r

/-- The register form of the bitwise operation `op` writes GR[r1] with its result. -/
theorem aluReg_logical_writesReg (s : State) (op : Word → Word → Word) (r1 r2 : Reg) :
    WritesReg s (aluReg (fun a v => logical (op a v)) r1 r2 s) r1 (op (s.reg r1) (s.reg r2))
      (logical (op (s.reg r1) (s.reg r2))).fr 1 :=
  aluReg_writesReg s (fun a v => logical (op a v)) r1 r2

/-- Settles O43: each logical instruction is its form at `&&&`, `|||` or `^^^`. -/
theorem logicalOperationsComplete : Obligations.LogicalOperationsComplete := by
  refine ⟨logical_flags, ?_, ?_⟩
  · rintro s r adr x ea _ hea rfl
    exact ⟨aluMem_logical_writesReg hea (· &&& ·) r, aluMem_logical_writesReg hea (· ||| ·) r,
      aluMem_logical_writesReg hea (· ^^^ ·) r⟩
  · rintro s r1 r2 _ _ rfl rfl
    exact ⟨aluReg_logical_writesReg s (· &&& ·) r1 r2, aluReg_logical_writesReg s (· ||| ·) r1 r2,
      aluReg_logical_writesReg s (· ^^^ ·) r1 r2⟩

end Sys2Proof.Machine
end

section
/-! PROOFS. The shifts (43_shift.md R150 to R154): each result is the library's shift of the word by the same count, from
which its bits are read; then what an instruction of the shape `shiftBy` completes in. -/

namespace Sys2Proof.Machine

/-! ### The results as shifts of words (R152 to R154) -/

theorem shiftLeftL_eq_shiftLeft (a : Word) (n : Nat) : shiftLeftL a n = a <<< n := by
  rw [shiftLeftL, trunc16, BitVec.ofInt_natCast, ← Nat.shiftLeft_eq]; rfl

theorem shiftRightL_eq_ushiftRight (a : Word) (n : Nat) : shiftRightL a n = a >>> n := by
  rw [shiftRightL, ← Nat.shiftRight_eq_div_pow, ← BitVec.toNat_ushiftRight, trunc16_uns]

/-- The library's arithmetic shift rounds toward minus infinity, as R152 asks. -/
theorem shiftRightA_eq_sshiftRight (a : Word) (n : Nat) : shiftRightA a n = a.sshiftRight n := by
  rw [shiftRightA, ← Int.shiftRight_eq_div_pow]; rfl

/-! ### The bits of the three unmasked shifts -/

section
variable (a : Word) (n : Nat) {k : Nat}

theorem shiftLeftL_getLsbD (hk : k < 16) :
    (shiftLeftL a n).getLsbD k = (decide (n ≤ k) && a.getLsbD (k - n)) := by
  simp only [shiftLeftL_eq_shiftLeft, BitVec.getLsbD_shiftLeft, hk, decide_true, Bool.true_and, ← decide_not,
    Nat.not_lt]

theorem shiftRightA_getLsbD (hk : k < 16) :
    (shiftRightA a n).getLsbD k = (if k + n < 16 then a.getLsbD (k + n) else a.getLsbD 15) := by
  simp only [shiftRightA_eq_sshiftRight, BitVec.getLsbD_sshiftRight, BitVec.msb_eq_getLsbD_last, Nat.not_le.mpr hk,
    decide_false, Bool.not_false, Bool.true_and, Nat.add_comm n k]

theorem shiftRightL_getLsbD : (shiftRightL a n).getLsbD k = a.getLsbD (k + n) := by
  rw [shiftRightL_eq_ushiftRight, BitVec.getLsbD_ushiftRight, Nat.add_comm]

/-! ### SLA: bit 15 from the operand, the others from SLL (R151) -/

theorem signMask_getLsbD : (0x8000 : Word).getLsbD k = decide (15 = k) := by
  rw [show (0x8000 : Word) = BitVec.twoPow 16 15 from rfl, BitVec.getLsbD_twoPow]; rfl

theorem magnitudeMask_getLsbD (hk : k < 16) : (0x7FFF : Word).getLsbD k = !decide (15 = k) := by
  rw [show (0x7FFF : Word) = ~~~0x8000 from rfl, BitVec.getLsbD_not, signMask_getLsbD, decide_eq_true hk,
    Bool.true_and]

theorem shiftLeftA_getLsbD (hk : k < 16) :
    (shiftLeftA a n).getLsbD k = (if k = 15 then a.getLsbD 15 else (shiftLeftL a n).getLsbD k) := by
  rw [shiftLeftA, ← shiftLeftL, BitVec.getLsbD_or, BitVec.getLsbD_and, BitVec.getLsbD_and, signMask_getLsbD,
    magnitudeMask_getLsbD hk]
  obtain rfl | hne := eq_or_ne k 15
  · simp
  · simp [hne, hne.symm]

end

/-- Settles O34: the bits of the library's shifts, and for SLA the two masks that choose between the operand and SLL. -/
theorem shiftsBitByBit : Obligations.ShiftsBitByBit := by
  intro a n k hk
  have hsll := shiftLeftL_getLsbD a n hk
  exact ⟨hsll ▸ shiftLeftA_getLsbD a n hk, shiftRightA_getLsbD a n hk, hsll, shiftRightL_getLsbD a n⟩

/-! ### The instructions (R150) -/

/-- Once the count is computed the shift completes; the count reads no memory. -/
theorem shiftBy_writesReg {s : State} {adr : Word} {x : Option Reg} {n : Word} (hn : effectiveAddress s adr x = .ok n)
    (op : Word → Nat → Word) (r : Reg) :
    WritesReg s (shiftBy op r adr x s) r (op (s.reg r) (uns n)) (logical (op (s.reg r) (uns n))).fr 2 := by
  rw [shiftBy, hn]
  exact writesReg_setReg_setFlags s r _ _ 2

/-- Settles O45: SLA, SRA, SLL and SRL are the one shape at their four operations. -/
theorem shiftsComplete : Obligations.ShiftsComplete := by
  intro s r adr x n hn
  exact ⟨shiftBy_writesReg hn shiftLeftA r, shiftBy_writesReg hn shiftRightA r, shiftBy_writesReg hn shiftLeftL r,
    shiftBy_writesReg hn shiftRightL r⟩

end Sys2Proof.Machine
end

section
/-! PROOFS. The compares (44_compare.md R160 to R166): the sign of a truncated difference, from which the flags give the
order of the operands; then what the instructions of the shapes `compareMem` and `compareReg` complete in. -/

namespace Sys2Proof.Machine

/-! ### The flags order the operands (R166) -/

/-- The sign bit of a truncated number, by its residue. -/
theorem trunc16_getLsbD_15_iff (n : Int) : (trunc16 n).getLsbD 15 = true ↔ 32768 ≤ n % 65536 := by
  have hmsb : (trunc16 n).getLsbD 15 = (trunc16 n).msb := (BitVec.msb_eq_getLsbD_last _).symm
  have hres : ((trunc16 n).toNat : Int) = n % 65536 := by
    rw [trunc16, BitVec.toNat_ofInt]
    omega
  rw [hmsb, BitVec.msb_eq_decide, decide_eq_true_iff]
  omega

theorem cmpA_OF_iff (a b : Word) : (cmpA a b).OF = true ↔ sgn a - sgn b < -32768 ∨ 32767 < sgn a - sgn b :=
  signedOverflow_iff _

theorem cmpA_SF_iff (a b : Word) : (cmpA a b).SF = true ↔ 32768 ≤ (sgn a - sgn b) % 65536 :=
  trunc16_getLsbD_15_iff _

theorem cmpA_ZF_iff (a b : Word) : (cmpA a b).ZF = true ↔ a = b :=
  calc (cmpA a b).ZF = true
    _ ↔ (subA a b).res = 0 := withSZ_ZF_iff _ _
    _ ↔ a = b := by rw [subA_res]; exact sub_eq_zero

theorem cmpL_SF_iff (p : UnsignedOfPolicy) (a b : Word) :
    (cmpL p a b).SF = true ↔ 32768 ≤ ((uns a : Int) - uns b) % 65536 :=
  trunc16_getLsbD_15_iff _

theorem cmpL_ZF_iff (p : UnsignedOfPolicy) (a b : Word) : (cmpL p a b).ZF = true ↔ a = b :=
  calc (cmpL p a b).ZF = true
    _ ↔ (subL p a b).res = 0 := withSZ_ZF_iff _ _
    _ ↔ a = b := by rw [subL_res]; exact sub_eq_zero

theorem sgn_range (w : Word) : -32768 ≤ sgn w ∧ sgn w < 32768 :=
  ⟨BitVec.le_toInt w, BitVec.toInt_lt⟩

/-- The exact difference is negative in two ways: it fits and its truncation is negative (SF alone), or it overflows
downwards and its truncation is not negative (OF alone). -/
theorem sgn_lt_iff_SF_ne_OF (a b : Word) : sgn a < sgn b ↔ (cmpA a b).SF ≠ (cmpA a b).OF := by
  have ha := sgn_range a
  have hb := sgn_range b
  rw [Ne, Bool.eq_iff_iff, cmpA_SF_iff, cmpA_OF_iff]
  omega

/-- A difference nearer than half of the range keeps its sign when truncated. -/
theorem uns_lt_iff_SF (p : UnsignedOfPolicy) {a b : Word} (hab : uns a < uns b + 32768) (hba : uns b < uns a + 32768) :
    uns a < uns b ↔ (cmpL p a b).SF = true := by
  rw [cmpL_SF_iff]
  omega

/-- Settles O33: ZF tells equality, and the order is the sign of the exact difference. -/
theorem compareFlagsOrderTheOperands : Obligations.CompareFlagsOrderTheOperands := by
  intro p a b
  have hborrow : p = .carry → (uns a < uns b ↔ (cmpL p a b).OF = true) := by
    intro hp
    rw [cmpL, subL_OF_iff, and_iff_right hp]
  exact ⟨cmpA_ZF_iff a b, sgn_lt_iff_SF_ne_OF a b, cmpL_ZF_iff p a b, hborrow, uns_lt_iff_SF p⟩

/-! ### The two forms (R162 to R165) -/

/-- The frame of a write of the flags alone, followed by the move of PR (R108). -/
theorem writesNoReg_setFlags (s : State) (f : Flags) (len : Nat) :
    WritesNoReg s (.next ((s.setFlags f).advance len)) f (s.pr + len) :=
  ⟨_, rfl, rfl, rfl, fun _ _ => rfl, fun _ => rfl, ⟨rfl, rfl, rfl, rfl, rfl, rfl⟩⟩

/-- Once the effective address is computed the memory form completes: a 16-bit address is inside the memory. -/
theorem compareMem_writesNoReg {s : State} {adr : Word} {x : Option Reg} {ea : Word}
    (hea : effectiveAddress s adr x = .ok ea) (op : Word → Word → Flags) (r : Reg) :
    WritesNoReg s (compareMem op r adr x s) (op (s.reg r) (s.mem.read (uns ea))) (s.pr + 2) := by
  rw [compareMem, memOperand_eq, hea]
  exact writesNoReg_setFlags s _ 2

theorem compareReg_writesNoReg (s : State) (op : Word → Word → Flags) (r1 r2 : Reg) :
    WritesNoReg s (compareReg op r1 r2 s) (op (s.reg r1) (s.reg r2)) (s.pr + 1) :=
  writesNoReg_setFlags s _ 1

/-- Settles O44: CPA and CPL are the two shapes at `cmpA` and at `cmpL`, under the policy that the state holds. -/
theorem comparesCompleteAndSetFlagsOnly : Obligations.ComparesCompleteAndSetFlagsOnly := by
  refine ⟨?_, ?_⟩
  · rintro s r adr x ea _ hea rfl
    exact ⟨compareMem_writesNoReg hea cmpA r, compareMem_writesNoReg hea (cmpL _) r⟩
  · intro s r1 r2
    exact ⟨compareReg_writesNoReg s cmpA r1 r2, compareReg_writesNoReg s (cmpL _) r1 r2⟩

end Sys2Proof.Machine
end

section
/-! PROOFS. The jumps (45_branch.md R170 to R177): what an instruction of the shape `jumpIf` completes in, taken or not;
then the six conditions. -/

namespace Sys2Proof.Machine

/-- R170: once the effective address is computed the jump completes, whether or not its condition `cond`, which `taken`
decides, holds; it writes PR alone. -/
theorem jumpIf_writesNoReg {s : State} {adr : Word} {x : Option Reg} {ea : Word} {taken : Bool} {cond : Prop}
    [Decidable cond] (hea : effectiveAddress s adr x = .ok ea) (htaken : taken = true ↔ cond) :
    WritesNoReg s (jumpIf taken adr x s) s.fr (if cond then uns ea else s.pr + 2) := by
  have hnext : jumpIf taken adr x s = .next (s.jumped taken (uns ea)) := by rw [jumpIf, hea, ok_bind, finish_ok]
  rw [hnext, State.jumped_eq, ← if_congr htaken rfl rfl]
  exact ⟨_, rfl, rfl, rfl, fun _ _ => rfl, fun _ => rfl, ⟨rfl, rfl, rfl, rfl, rfl, rfl⟩⟩

/-- Settles O46: each jump is the one shape, and its condition is what its tested flags decide (R177). -/
theorem jumpsFollowTheirConditions : Obligations.JumpsFollowTheirConditions := by
  intro s adr x ea hea
  have hjnz : (!s.fr.ZF) = true ↔ s.fr.ZF = false := .of_eq (Bool.not_eq_true' _)
  have hjpl : (!s.fr.SF && !s.fr.ZF) = true ↔ s.fr.SF = false ∧ s.fr.ZF = false := by
    rw [Bool.and_eq_true, Bool.not_eq_true', Bool.not_eq_true']
  have hjump : WritesNoReg s (jumpIf true adr x s) s.fr (if True then uns ea else s.pr + 2) :=
    jumpIf_writesNoReg hea (iff_of_true rfl trivial)
  exact ⟨jumpIf_writesNoReg hea Iff.rfl, jumpIf_writesNoReg hea hjnz, jumpIf_writesNoReg hea Iff.rfl, hjump,
    jumpIf_writesNoReg hea hjpl, jumpIf_writesNoReg hea Iff.rfl⟩

end Sys2Proof.Machine
end

section
/-! PROOFS. Load and store (47_load_store.md R211 to R214): what LD, LAD and ST complete in, from the frame of a write of
one register and from the rules of the memory. -/

namespace Sys2Proof.Machine

variable {s : State} {adr : Word} {x : Option Reg} {ea : Word}

/-! ### The loads (R211, R212, R214) -/

/-- The frame of a write of one register alone, followed by the move of PR (R108): the flags are written as they were. -/
theorem writesReg_setReg (s : State) (r : Reg) (v : Word) (len : Nat) :
    WritesReg s (.next ((s.setReg r v).advance len)) r v s.fr len :=
  writesReg_setReg_setFlags s r v s.fr len

/-- R211: once the effective address is computed LD completes: a 16-bit address is inside the memory. -/
theorem execLdMem_writesReg (hea : effectiveAddress s adr x = .ok ea) (r : Reg) :
    WritesReg s (execLdMem r adr x s) r (s.mem.read (uns ea)) s.fr 2 := by
  rw [execLdMem, memOperand_eq, hea]
  exact writesReg_setReg s r _ 2

theorem execLdReg_writesReg (s : State) (r1 r2 : Reg) : WritesReg s (execLdReg r1 r2 s) r1 (s.reg r2) s.fr 1 :=
  writesReg_setReg s r1 _ 1

/-- R214: LAD loads the effective address itself and reads no memory. -/
theorem execLad_writesReg (hea : effectiveAddress s adr x = .ok ea) (r : Reg) :
    WritesReg s (execLad r adr x s) r ea s.fr 2 := by
  rw [execLad, hea]
  exact writesReg_setReg s r ea 2

/-! ### The store (R213) -/

/-- R213: once the effective address is computed ST completes: a 16-bit address is inside the memory. -/
theorem execSt_eq (hea : effectiveAddress s adr x = .ok ea) (r : Reg) :
    execSt r adr x s = .next ((s.setMem (s.mem.write (uns ea) (s.reg r))).advance 2) := by
  rw [execSt, hea, ok_bind, memWrite_word, ok_bind, finish_ok]

/-! ### The statements -/

/-- Settles O38: the two forms of LD, and LAD, each write one register by the one frame. -/
theorem loadsWriteTheirRegister : Obligations.LoadsWriteTheirRegister :=
  ⟨fun _ r _ _ _ hea => ⟨execLdMem_writesReg hea r, execLad_writesReg hea r⟩, execLdReg_writesReg⟩

/-- Settles O39: in a memory in canonical form the stored word is read at EA, and the words elsewhere as they were. -/
theorem storeWritesTheWordAtEa : Obligations.StoreWritesTheWordAtEa := by
  intro s r adr x ea hm hea
  exact ⟨_, execSt_eq hea r, Memory.read_write_same hm _ _, fun _ ha => Memory.read_write_other hm ha _,
    fun _ _ => rfl, rfl, rfl, ⟨rfl, rfl, rfl, rfl, rfl, rfl⟩⟩

end Sys2Proof.Machine
end

section
/-! PROOFS. The ways out of an instruction and out of a Halted state (60_exceptions.md section 4, R265;
70_reset_and_hazards.md R294): an instruction always has a next state but for the waiting IN, and only the host's load
leaves a Halted state. -/

namespace Sys2Proof.Machine

/-- R293: only a Ready engine is moved by `start()`. -/
theorem start_run_of_not_ready {s : State} (h : s.run ≠ .ready) : (start s).run = s.run := by
  unfold start
  split
  case h_1 hready => exact absurd hready h
  all_goals rfl

/-! ### The statements -/

/-- Settles O15: completion and a trap entry are both next states, and `exec` can answer nothing else but the wait. -/
theorem everyInstructionRunsButAWaitingIn : Obligations.EveryInstructionRunsButAWaitingIn := by
  intro i s
  obtain ⟨t, ht, -⟩ | ⟨e, he, -⟩ | hwaits := exec_answers i s
  · exact .inl ⟨t, ht⟩
  · exact .inl ⟨s.trap e, he⟩
  · exact .inr hwaits

/-- Settles O22: a Halted engine takes the host's next call, and a `start()` leaves it as it is. -/
theorem onlyALoadLeavesAHaltedState : Obligations.OnlyALoadLeavesAHaltedState := by
  intro s t hhalted hstep hleft
  obtain ⟨hrunning, hready⟩ : s.run ≠ .running ∧ s.run ≠ .ready := by
    obtain h | ⟨e, h⟩ := hhalted <;> rw [h] <;> exact ⟨nofun, nofun⟩
  rw [step_not_running hrunning] at hstep
  obtain ⟨cs, -, rfl⟩ | ⟨args, cs, hcalls, -, rfl⟩ := hostStep_next hstep
  · exact (hleft (start_run_of_not_ready hready)).elim
  · exact ⟨args, cs, hcalls, rfl, rfl, rfl⟩

end Sys2Proof.Machine
end

section
/-! PROOFS. The bound that a step limit puts on a run (40_execution_cycle.md R102, R112): a step that leaves the engine
running counts one instruction below the limit, so the steps left under the limit are a measure that decreases. -/

namespace Sys2Proof.Machine

variable {s t : State} {i : Instr} {n l : Nat}

/-! ### What a running engine's step can answer -/

/-- An instruction that leaves the engine running has completed: an error would have halted it (R263). -/
theorem completes_of_exec_running (h : exec i s = .next t) (ht : t.run = .running) : Completes s i t := by
  obtain hc | ⟨e, rfl, -⟩ := exec_next h
  · exact hc
  · cases ht

/-- R110: a running engine steps into a next state, or waits in an IN. The cases are R264's: the abort, the step limit,
a failing fetch, the instruction. -/
theorem step_running_answers (hrun : s.run = .running) :
    (∃ t, step s = .next t) ∨ step s = .fault .waitingForDevice := by
  rw [step, hrun]
  simp only [engineStep]
  split
  case isTrue => exact .inl ⟨_, rfl⟩
  case isFalse =>
    split
    case h_1 => exact .inl ⟨_, rfl⟩
    case h_2 =>
      split
      case h_1 => exact .inl ⟨_, rfl⟩
      case h_2 => exact (everyInstructionRunsButAWaitingIn _ _).imp_right And.left

/-- R102, R108: a step that leaves the engine running was taken below the limit and has counted one instruction. -/
theorem step_stays_running (hrun : s.run = .running) (h : step s = .next t) (ht : t.run = .running) :
    limitReached s = none ∧ t.steps = s.steps + 1 ∧ t.params = s.params := by
  obtain ⟨-, rfl⟩ | ⟨-, _, -, rfl⟩ | ⟨-, _, -, rfl⟩ | ⟨⟨-, -, hlim⟩, i, -, hexec⟩ := step_running_next hrun h
  · cases ht
  · cases ht
  · cases ht
  · have hc := completes_of_exec_running hexec ht
    exact ⟨hlim, hc.steps_eq, hc.params_eq⟩

/-! ### Runs that end -/

/-- Within `n` steps from `s` the engine has left Running, or it waits in an IN. -/
def EndsWithin (s : State) (n : Nat) : Prop :=
  ∃ k ≤ n, (∃ t : State, Host.Core.run core k s = .next t ∧ t.run ≠ .running) ∨
    Host.Core.run core k s = .fault Fault.waitingForDevice

theorem core_run_succ {M : Host.Core} {u v : M.State} (h : M.step u = .next v) (k : Nat) :
    M.run (k + 1) u = M.run k v := by
  rw [Host.Core.run, h]

theorem core_run_one_of_fault {M : Host.Core} {u : M.State} {r : M.Fault} (h : M.step u = .fault r) :
    M.run 1 u = .fault r := by
  rw [Host.Core.run, h]

theorem endsWithin_of_not_running (h : s.run ≠ .running) (n : Nat) : EndsWithin s n :=
  ⟨0, n.zero_le, .inl ⟨s, rfl, h⟩⟩

theorem endsWithin_succ_of_waiting (h : step s = .fault .waitingForDevice) (n : Nat) : EndsWithin s (n + 1) :=
  ⟨1, n.succ_pos, .inr (core_run_one_of_fault (M := core) h)⟩

theorem EndsWithin.of_step (h : EndsWithin t n) (hstep : step s = .next t) : EndsWithin s (n + 1) := by
  obtain ⟨k, hk, hend⟩ := h
  rw [← core_run_succ (M := core) hstep] at hend
  exact ⟨k + 1, Nat.succ_le_succ hk, hend⟩

/-- A run below its limit ends before `n` more instructions would pass it: a step that leaves the engine running uses
up one of the `n` and is not taken at the limit itself. -/
theorem endsWithin_of_stepLimit (hrun : s.run = .running) (hl : s.params.stepLimit = some l) (hle : s.steps ≤ l)
    (hn : l < s.steps + n) : EndsWithin s n := by
  induction n generalizing s with
  | zero => exact absurd hn (Nat.not_lt.mpr hle)
  | succ n ih =>
    obtain ⟨t, hstep⟩ | hwaits := step_running_answers hrun
    · by_cases ht : t.run = .running
      · obtain ⟨hlim, hsteps, hparams⟩ := step_stays_running hrun hstep ht
        have hlt : s.steps < l := steps_lt_of_limitReached_none hlim hl
        exact (ih ht (hparams ▸ hl) (by omega) (by omega)).of_step hstep
      · exact (endsWithin_of_not_running ht n).of_step hstep
    · exact endsWithin_succ_of_waiting hwaits n

/-! ### The statement -/

/-- Settles O18: `L + 1 - STEPS` more instructions would pass the limit. -/
theorem runEndsWithinTheStepLimit : Obligations.RunEndsWithinTheStepLimit :=
  fun _ _ hrun hl hle => endsWithin_of_stepLimit hrun hl hle (by omega)

end Sys2Proof.Machine
end

section
/-! PROOFS. The opcode table as masks and patterns (30_encoding.md R81): a row fixes the opcode of a word and leaves the
two register fields to its format, so that rows with different opcodes match different words; then the statements about
legal first words. -/

namespace Sys2Proof

variable {w : Word} {row : Row}

/-! ### A row's mask, field by field (R71, R81) -/

theorem fieldOp_and (v w : Word) : fieldOp (v &&& w) = fieldOp v &&& fieldOp w := BitVec.extractLsb'_and

theorem fieldR_and (v w : Word) : fieldR (v &&& w) = fieldR v &&& fieldR w := BitVec.extractLsb'_and

theorem fieldX_and (v w : Word) : fieldX (v &&& w) = fieldX v &&& fieldX w := BitVec.extractLsb'_and

/-- The bits of the fields `r` and `x` that a format wants to be 0: bit 3 of a field that names a register, and every
bit of a field that the format does not use (R74, R75). -/
def Format.fieldMasks : Format → BitVec 4 × BitVec 4
  | .N => (0xF, 0xF)
  | .RR => (0x8, 0x8)
  | .R => (0x8, 0xF)
  | .RA => (0x8, 0x8)
  | .A => (0xF, 0x8)

/-- The rows of the table are made alike: the whole opcode and the field masks of the format, with both fields 0. -/
theorem row_eq_word1 (hrow : row ∈ opcodeTable) :
    row.mask = word1 0xFF row.format.fieldMasks.1 row.format.fieldMasks.2 ∧
      row.pattern = word1 (fieldOp row.pattern) 0 0 := by
  revert row
  decide

/-- What a word that matches a row has in its fields. -/
theorem fields_of_matches (hrow : row ∈ opcodeTable) (h : row.matches w = true) :
    fieldOp w = fieldOp row.pattern ∧ fieldR w &&& row.format.fieldMasks.1 = 0 ∧
      fieldX w &&& row.format.fieldMasks.2 = 0 := by
  obtain ⟨hmask, hpattern⟩ := row_eq_word1 hrow
  have hw : w &&& row.mask = row.pattern := beq_iff_eq.mp h
  have hop := congrArg fieldOp hw
  have hr := congrArg fieldR hw
  have hx := congrArg fieldX hw
  rw [hmask, fieldOp_and, fieldOp_word1] at hop
  rw [hmask, hpattern, fieldR_and, fieldR_word1, fieldR_word1] at hr
  rw [hmask, hpattern, fieldX_and, fieldX_word1, fieldX_word1] at hx
  exact ⟨(BitVec.and_allOnes (x := fieldOp w)).symm.trans hop, hr, hx⟩

/-! ### The fields that a format accepts (R74, R75, R77) -/

theorem eq_zero_of_and_fifteen {f : BitVec 4} (h : f &&& 0xF = 0) : f = 0 :=
  (BitVec.and_allOnes (x := f)).symm.trans h

theorem readReg_of_and_eight {f : BitVec 4} (h : f &&& 0x8 = 0) : ∃ r, readReg f = .ok r := by
  have hlt : f.toNat < 8 := by revert f; decide
  exact ⟨_, dif_pos hlt⟩

theorem readIndex_of_and_eight {f : BitVec 4} (h : f &&& 0x8 = 0) : ∃ x, readIndex f = .ok x := by
  obtain ⟨r, hr⟩ := readReg_of_and_eight h
  rw [readIndex, hr]
  split <;> exact ⟨_, rfl⟩

theorem headN_legal (hr : fieldR w &&& 0xF = 0) (hx : fieldX w &&& 0xF = 0) (i : Instr) :
    ∃ h, headN w i = .ok h := by
  rw [headN, eq_zero_of_and_fifteen hr, eq_zero_of_and_fifteen hx]
  exact ⟨_, rfl⟩

theorem headRR_legal (hr : fieldR w &&& 0x8 = 0) (hx : fieldX w &&& 0x8 = 0) (i : Reg → Reg → Instr) :
    ∃ h, headRR w i = .ok h := by
  obtain ⟨r1, h1⟩ := readReg_of_and_eight hr
  obtain ⟨r2, h2⟩ := readReg_of_and_eight hx
  rw [headRR, h1, h2]
  exact ⟨_, rfl⟩

theorem headR_legal (hr : fieldR w &&& 0x8 = 0) (hx : fieldX w &&& 0xF = 0) (i : Reg → Instr) :
    ∃ h, headR w i = .ok h := by
  obtain ⟨r, h⟩ := readReg_of_and_eight hr
  rw [headR, h, eq_zero_of_and_fifteen hx]
  exact ⟨_, rfl⟩

theorem headRA_legal (hr : fieldR w &&& 0x8 = 0) (hx : fieldX w &&& 0x8 = 0)
    (i : Reg → Word → Option Reg → Instr) : ∃ h, headRA w i = .ok h := by
  obtain ⟨r, h1⟩ := readReg_of_and_eight hr
  obtain ⟨x, h2⟩ := readIndex_of_and_eight hx
  rw [headRA, h1, h2]
  exact ⟨_, rfl⟩

theorem headA_legal (hr : fieldR w &&& 0xF = 0) (hx : fieldX w &&& 0x8 = 0) (i : Word → Option Reg → Instr) :
    ∃ h, headA w i = .ok h := by
  obtain ⟨x, h⟩ := readIndex_of_and_eight hx
  rw [headA, h, eq_zero_of_and_fifteen hr]
  exact ⟨_, rfl⟩

/-! ### Legal first words -/

/-- A word that matches a row has the row's opcode, which `decodeHead` sends to the row's format, and that format
accepts the fields that the mask has left to it. The cases are the rows of the table in its order. -/
theorem decodeHead_of_matches (hrow : row ∈ opcodeTable) (h : row.matches w = true) :
    ∃ h, decodeHead w = .ok h := by
  obtain ⟨hop, hr, hx⟩ := fields_of_matches hrow h
  rw [decodeHead, hop]
  simp only [opcodeTable, rowsLoadStore, rowsArithmetic, rowsLogical, rowsCompareShift, rowsControl, List.mem_append,
    List.mem_cons, List.not_mem_nil, or_false] at hrow
  obtain (((hrow | hrow) | hrow) | hrow) | hrow := hrow
  · obtain rfl | rfl | rfl | rfl | rfl := hrow
    exacts [headN_legal hr hx _, headRA_legal hr hx _, headRA_legal hr hx _, headRA_legal hr hx _,
      headRR_legal hr hx _]
  · obtain rfl | rfl | rfl | rfl | rfl | rfl | rfl | rfl := hrow
    exacts [headRA_legal hr hx _, headRA_legal hr hx _, headRA_legal hr hx _, headRA_legal hr hx _,
      headRR_legal hr hx _, headRR_legal hr hx _, headRR_legal hr hx _, headRR_legal hr hx _]
  · obtain rfl | rfl | rfl | rfl | rfl | rfl := hrow
    exacts [headRA_legal hr hx _, headRA_legal hr hx _, headRA_legal hr hx _,
      headRR_legal hr hx _, headRR_legal hr hx _, headRR_legal hr hx _]
  · obtain rfl | rfl | rfl | rfl | rfl | rfl | rfl | rfl := hrow
    exacts [headRA_legal hr hx _, headRA_legal hr hx _, headRR_legal hr hx _, headRR_legal hr hx _,
      headRA_legal hr hx _, headRA_legal hr hx _, headRA_legal hr hx _, headRA_legal hr hx _]
  · obtain rfl | rfl | rfl | rfl | rfl | rfl | rfl | rfl | rfl | rfl | rfl := hrow
    exacts [headA_legal hr hx _, headA_legal hr hx _, headA_legal hr hx _, headA_legal hr hx _, headA_legal hr hx _,
      headA_legal hr hx _, headA_legal hr hx _, headR_legal hr hx _, headA_legal hr hx _, headN_legal hr hx _,
      headA_legal hr hx _]

/-- Each instruction has its row. The cases are the instructions in the order of the opcode map. -/
theorem tableRow_statement (i : Instr) : Laws.TableRow.Statement i := by
  cases i
  exacts [Laws.TableRow.nop, Laws.TableRow.ldMem .., Laws.TableRow.st .., Laws.TableRow.lad ..,
    Laws.TableRow.ldReg .., Laws.TableRow.addaMem .., Laws.TableRow.subaMem .., Laws.TableRow.addlMem ..,
    Laws.TableRow.sublMem .., Laws.TableRow.addaReg .., Laws.TableRow.subaReg .., Laws.TableRow.addlReg ..,
    Laws.TableRow.sublReg .., Laws.TableRow.andMem .., Laws.TableRow.orMem .., Laws.TableRow.xorMem ..,
    Laws.TableRow.andReg .., Laws.TableRow.orReg .., Laws.TableRow.xorReg .., Laws.TableRow.cpaMem ..,
    Laws.TableRow.cplMem .., Laws.TableRow.cpaReg .., Laws.TableRow.cplReg .., Laws.TableRow.sla ..,
    Laws.TableRow.sra .., Laws.TableRow.sll .., Laws.TableRow.srl .., Laws.TableRow.jmi .., Laws.TableRow.jnz ..,
    Laws.TableRow.jze .., Laws.TableRow.jump .., Laws.TableRow.jpl .., Laws.TableRow.jov ..,
    Laws.TableRow.push .., Laws.TableRow.pop .., Laws.TableRow.call .., Laws.TableRow.ret, Laws.TableRow.svc ..]

theorem exists_row_matches_firstWord (i : Instr) : ∃ row ∈ opcodeTable, row.matches (firstWord i) = true := by
  obtain ⟨⟨row, hrow, -, hmatches⟩, -⟩ := tableRow_statement i
  exact ⟨row, hrow, hmatches⟩

/-- No opcode stands in two rows. -/
theorem opcodes_nodup : (opcodeTable.map fun row => fieldOp row.pattern).Nodup := by decide

/-! ### The statements -/

/-- Settles O3: a word that decodes is some instruction's first word, which matches a row; a word that matches a row has
the fields that the row's format accepts. -/
theorem firstWordIsLegalExactlyWhenARowMatches : Obligations.FirstWordIsLegalExactlyWhenARowMatches := by
  intro w
  constructor
  · rintro ⟨i | f, hw⟩
    · exact (decodeHead_hasFirstWord hw : w = firstWord i) ▸ exists_row_matches_firstWord i
    · exact (decodeHead_hasFirstWord hw 0 : w = firstWord (f 0)) ▸ exists_row_matches_firstWord (f 0)
  · rintro ⟨row, hrow, hmatches⟩
    exact decodeHead_of_matches hrow hmatches

/-- Settles O4: two rows that match one word have its opcode, which stands in one row only. -/
theorem atMostOneRowMatchesAWord : Obligations.AtMostOneRowMatchesAWord := by
  intro w row row' hrow hrow' h h'
  obtain ⟨hop, -⟩ := fields_of_matches hrow h
  obtain ⟨hop', -⟩ := fields_of_matches hrow' h'
  exact List.inj_on_of_nodup_map opcodes_nodup hrow hrow' (hop.symm.trans hop')

/-- Settles O5: each word list is the encoding of a well-formed instruction, which decodes to itself. -/
theorem specWordsDecode : Obligations.SpecWordsDecode :=
  have decodes (i : Instr) (hwf : i.wf = true) : decode (encode i ++ []) = .ok (i, []) :=
    encodedInstructionDecodesToItself i [] hwf
  ⟨decodes .nop rfl, decodes (.ldMem 1 0x000A none) rfl, decodes (.ldReg 1 2) rfl,
    decodes (.addaMem 1 0x0010 (some 2)) rfl, decodes (.xorReg 4 4) rfl, decodes (.sll 1 0x0001 (some 2)) rfl,
    decodes (.jump 0x0000 (some 1)) rfl, decodes (.pop 2) rfl, decodes (.svc 0x0001 none) rfl⟩

end Sys2Proof
end

section
/-! PROOFS. The ways in which a step of a running engine ends (40_execution_cycle.md section 2; 60_exceptions.md
section 2): stopped before its fetch, at the decode of word 1, in an error of the instruction, or completed; then the
statements of that family. -/

namespace Sys2Proof.Machine

variable {s t : State} {i : Instr} {e : RunError}

/-- R263: a trap entry changes the run state alone. -/
theorem trapsWith_of_eq {o : Result} (h : o = .next (s.trap e)) : TrapsWith s o e :=
  h ▸ trapsWith_trap s e

/-! ### Before the fetch (R101, R102) -/

theorem step_of_abort (hrun : s.run = .running) (habort : abortAsserted s.host = true) :
    step s = .next (s.afterSampling.trap .aborted) := by
  rw [step, hrun]
  exact if_pos habort

theorem step_of_limitReached {l : Nat} (hrun : s.run = .running) (habort : abortAsserted s.host = false)
    (hl : limitReached s = some l) : step s = .next (s.afterSampling.trap (.stepLimitExceeded l)) := by
  rw [step, hrun]
  simp only [engineStep, habort, hl]
  rfl

/-! ### How a completed instruction leaves the run state (R109) -/

theorem Completes.run_ne_haltedError (h : Completes s i t) (hrun : s.run = .running) : t.run ≠ .haltedError e := by
  obtain ht | ht := h.run_cases <;> rw [ht]
  · rw [hrun]; exact nofun
  · exact nofun

/-- R232: only service 0 writes Halted(normal). -/
theorem Completes.svcHalt_of_haltedNormal (h : Completes s i t) (hrun : s.run = .running)
    (ht : t.run = .haltedNormal) :
    ∃ adr x, i = .svc adr x ∧ effectiveAddress s adr x = .ok 0 ∧ t = (s.advance 2).setRun .haltedNormal := by
  cases h with
  | svcHalt adr x hea => exact ⟨adr, x, rfl, hea, rfl⟩
  | jmi | jnz | jze | jump | jpl | jov => rw [State.jumped_eq] at ht; cases hrun.symm.trans ht
  | _ => cases hrun.symm.trans ht

/-! ### How a step ends -/

/-- A step of a running engine is the trap entry of an error, or the completion of the instruction it fetched. -/
theorem step_running_ends (hrun : s.run = .running) (h : step s = .next t) :
    (∃ e, t = s.afterSampling.trap e) ∨ ∃ i, fetch s = .ok i ∧ Completes s.afterSampling i t := by
  obtain ⟨-, rfl⟩ | ⟨-, l, -, rfl⟩ | ⟨-, e, -, rfl⟩ | ⟨-, i, hf, hexec⟩ := step_running_next hrun h
  · exact .inl ⟨_, rfl⟩
  · exact .inl ⟨_, rfl⟩
  · exact .inl ⟨_, rfl⟩
  · obtain hc | ⟨e, rfl, -⟩ := exec_next hexec
    · exact .inr ⟨i, hf, hc⟩
    · exact .inl ⟨e, rfl⟩

/-! ### The statements -/

/-- Settles O7: the abort signal is the first thing a running engine looks at. -/
theorem abortIsTakenBeforeEverything : Obligations.AbortIsTakenBeforeEverything :=
  fun _ hrun habort => trapsWith_of_eq (step_of_abort hrun habort)

/-- Settles O8: with no abort, the limit is the second. -/
theorem stepLimitStopsBeforeTheFetch : Obligations.StepLimitStopsBeforeTheFetch :=
  fun _ _ hrun habort hl hle =>
    trapsWith_of_eq (step_of_limitReached hrun habort (limitReached_eq_some.mpr ⟨hl, hle⟩))

/-- Settles O10: a word that decoded would match a row. -/
theorem illegalFirstWordRaisesIllegalInstruction : Obligations.IllegalFirstWordRaisesIllegalInstruction := by
  intro s hreach hpr hnone
  cases hw : decodeHead (s.mem.read s.pr) with
  | ok h =>
    obtain ⟨row, hrow, hmatches⟩ := (firstWordIsLegalExactlyWhenARowMatches _).mp ⟨h, hw⟩
    cases (hnone row hrow).symm.trans hmatches
  | error r => exact step_trapsWith_of_fetch_error hreach (fetch_of_illegal hpr hw)

/-- Settles O11: a completed instruction records no error, and a trap entry records its own. -/
theorem failedStepChangesOnlyTheRunState : Obligations.FailedStepChangesOnlyTheRunState := by
  intro s t e hrun hstep ht
  obtain ⟨e', rfl⟩ | ⟨i, -, hc⟩ := step_running_ends hrun hstep
  · cases ht; rfl
  · exact absurd ht (hc.run_ne_haltedError hrun)

/-- Settles O12: the step is no trap entry, so that its instruction completed. -/
theorem completedStepCountsOneInstruction : Obligations.CompletedStepCountsOneInstruction := by
  intro s t hrun hstep hnoError
  obtain ⟨e, rfl⟩ | ⟨i, -, hc⟩ := step_running_ends hrun hstep
  · exact absurd rfl (hnoError e)
  · exact ⟨hc.steps_eq, hc.run_cases.imp_left fun h => h.trans hrun, hc.params_eq, hc.host_eq⟩

/-- Settles O14: the instruction that completed in Halted(normal) is an SVC 0, which writes PR, STEPS and the run
state. -/
theorem normalHaltComesOnlyFromServiceZero : Obligations.NormalHaltComesOnlyFromServiceZero := by
  intro s t hrun hstep ht
  obtain ⟨e, rfl⟩ | ⟨i, hf, hc⟩ := step_running_ends hrun hstep
  · cases ht
  · obtain ⟨adr, x, rfl, hea, rfl⟩ := hc.svcHalt_of_haltedNormal hrun ht
    exact ⟨adr, x, hf, hea, rfl, rfl, rfl, rfl, rfl, rfl⟩

end Sys2Proof.Machine
end

section
/-! PROOFS. What the host does between runs, and reset (70_reset_and_hazards.md section 1; 40_execution_cycle.md R100;
10_state.md section 5): what memory and the registers hold after a load, and which MEM_RESET a load can give; then the
statements of that family. -/

namespace Sys2Proof.Machine

/-! ### The image (R290, R291) -/

/-- Where no word of the image lies, at a `reserved` entry too, memory keeps what it held. -/
theorem Memory.read_placeImage_elsewhere {m : Memory} {a q : Nat} {es : List ImageEntry} (hm : m.wf = true)
    (hfit : a + es.length ≤ memWords) (hq : ∀ (k : Nat) (w : Word), q = a + k → es[k]? ≠ some (.word w)) :
    (m.placeImage a es).read q = m.read q := by
  induction es generalizing m a with
  | nil => rfl
  | cons entry es ih =>
    have ha : a < memWords := by simp only [List.length_cons] at hfit; omega
    have hrest : a + 1 + es.length ≤ memWords := by simp only [List.length_cons] at hfit; omega
    have hq' (k : Nat) (w : Word) (h : q = a + 1 + k) : es[k]? ≠ some (.word w) := hq (k + 1) w (by omega)
    cases entry with
    | reserved => exact ih hm hrest hq'
    | word w =>
      have hne : q ≠ a := fun h => hq 0 w h rfl
      exact (ih (Memory.write_wf hm ha) hrest hq').trans (Memory.read_write_other hm hne w)

/-- Each word of the image stands at its place. -/
theorem Memory.read_placeImage_word {m : Memory} {a k : Nat} {w : Word} {es : List ImageEntry} (hm : m.wf = true)
    (hfit : a + es.length ≤ memWords) (hk : es[k]? = some (.word w)) : (m.placeImage a es).read (a + k) = w := by
  induction es generalizing m a k with
  | nil => cases hk
  | cons entry es ih =>
    have ha : a < memWords := by simp only [List.length_cons] at hfit; omega
    have hrest : a + 1 + es.length ≤ memWords := by simp only [List.length_cons] at hfit; omega
    cases k with
    | zero =>
      cases hk
      have hlast (k : Nat) (v : Word) (h : a = a + 1 + k) : es[k]? ≠ some (.word v) := by omega
      exact (Memory.read_placeImage_elsewhere (Memory.write_wf hm ha) hrest hlast).trans
        (Memory.read_write_same hm a w)
    | succ k =>
      have hplace : a + (k + 1) = a + 1 + k := by omega
      rw [hplace]
      cases entry with
      | reserved => exact ih hm hrest hk
      | word v => exact ih (Memory.write_wf hm ha) hrest hk

/-! ### The registers (R290) -/

theorem resetRegs_sp (args : LoadArgs) : (resetRegs args)[spReg] = args.params.spInit :=
  Vector.getElem_push_eq

theorem resetRegs_castSucc (args : LoadArgs) (k : Fin 7) : (resetRegs args)[k.castSucc] = args.grReset[k] :=
  Vector.getElem_push_lt k.isLt

/-! ### MEM_RESET (D22, log 17) -/

theorem Memory.ofCells_append (m : Memory) (cs ds : List (Nat × Word)) :
    Memory.ofCells m (cs ++ ds) = Memory.ofCells (Memory.ofCells m cs) ds := by
  induction cs generalizing m with
  | nil => rfl
  | cons c cs ih => exact ih _

/-- Cells for the words of `f` at the first `n` addresses. -/
def cellsBelow (f : Nat → Word) (n : Nat) : List (Nat × Word) := (List.range n).map fun a => (a, f a)

theorem read_ofCells_cellsBelow (f : Nat → Word) {n a : Nat} (hn : n ≤ memWords) (ha : a < n) :
    (Memory.ofCells [] (cellsBelow f n)).read a = f a := by
  induction n with
  | zero => omega
  | succ n ih =>
    have hcells : Memory.ofCells [] (cellsBelow f (n + 1)) =
        (Memory.ofCells [] (cellsBelow f n)).write n (f n) := by
      rw [cellsBelow, List.range_succ, List.map_append, Memory.ofCells_append]
      exact if_pos hn
    rw [hcells, Memory.read_write (Memory.ofCells_wf rfl)]
    split
    · rename_i h; rw [h]
    · exact ih (by omega) (by omega)

/-! ### A call of the host (R100, R293) -/

/-- R293: `start()` writes the run state, and changes it in Ready only. -/
theorem start_eq (s : State) : start s = s.setRun (if s.run = .ready then .running else s.run) := by
  cases s with
  | mk run => cases run <;> rfl

/-- The host's load is taken by an engine that is not running (R290, R292). -/
theorem step_of_load {s : State} {args : LoadArgs} {cs : List HostCall} (hcalls : s.host.calls = .load args :: cs)
    (hrun : s.run ≠ .running) : step s = load args (s.setHost { s.host with calls := cs }) := by
  rw [step_not_running hrun, hostStep, hcalls]

/-! ### The statements -/

/-- Settles O17: memory is empty, PR is 0, there is no step limit and no error is recorded. -/
theorem resetMeetsTheInvariant : Obligations.ResetMeetsTheInvariant where
  memory := State.reset_mem_wf
  pr := Nat.zero_le _
  steps := nofun
  error := nofun

/-- Settles O20: an engine that is not running takes the call. -/
theorem startMovesReadyToRunning : Obligations.StartMovesReadyToRunning := by
  intro s cs hcalls hrun
  rw [step_not_running hrun, hostStep, hcalls]
  exact congrArg _ (start_eq _)

/-- Settles O21: the host's list of calls is empty, and the fault says which run state it was. -/
theorem noStepOutsideRunningWithoutAHostCall : Obligations.NoStepOutsideRunningWithoutAHostCall := by
  intro s hcalls
  have hfault (hrun : s.run ≠ .running) : step s = .fault (if s.run = .ready then .notStarted else .halted) := by
    rw [step_not_running hrun, hostStep, hcalls]
  refine ⟨fun h => ?_, fun h => ?_, fun e h => ?_⟩
  · rw [hfault (h ▸ nofun), h]; rfl
  · rw [hfault (h ▸ nofun), h]; rfl
  · rw [hfault (h ▸ nofun), h]; rfl

/-- Settles O23: the registers are GR_RESET and SP_INIT, and memory is MEM_RESET with the image placed in it. -/
theorem loadSetsTheWholeState : Obligations.LoadSetsTheWholeState := by
  intro s args cs hcalls hrun hfit
  have hm : (Memory.ofCells [] args.memReset).wf = true := Memory.ofCells_wf rfl
  have hstep : step s = .next (loadedState args { s.host with calls := cs } s.dev s.draws) := by
    rw [step_of_load hcalls hrun, load, if_neg (Nat.not_lt.mpr hfit)]
    rfl
  exact ⟨_, hstep, rfl, rfl, rfl, resetRegs_sp args, resetRegs_castSucc args, rfl, rfl, rfl, rfl, rfl,
    fun k w hk => Memory.read_placeImage_word hm hfit hk,
    fun a ha => Memory.read_placeImage_elsewhere hm hfit ha⟩

/-- Settles O24: a cell for each of the 65,536 addresses. -/
theorem everyMemResetIsSomeLoads : Obligations.EveryMemResetIsSomeLoads :=
  fun f => ⟨cellsBelow f memWords, fun _ ha => read_ofCells_cellsBelow f le_rfl ha⟩

/-- Settles O25: the load is taken and its image does not fit. -/
theorem oversizeLoadIsRefused : Obligations.OversizeLoadIsRefused := by
  intro s args cs hcalls hrun hbig
  rw [step_of_load hcalls hrun, load, if_pos hbig]

end Sys2Proof.Machine
end

section
/-! PROOFS. What an instruction may write (10_state.md R24; 20_memory.md R51), read off `Completes`: the registers and
the words of memory that it leaves alone; then the two statements. -/

namespace Sys2Proof.Machine

variable {s t : State} {i : Instr}

/-! ### A completed instruction -/

/-- R24: only the listed registers are written. -/
theorem Completes.regsKeptExcept (h : Completes s i t) : RegsKeptExcept (writtenRegs i) s t := by
  intro q hq
  cases h with
  | nop | st | cpaMem | cpaReg | cplMem | cplReg | svcHalt | svcIn | svcOut => rfl
  | jmi | jnz | jze | jump | jpl | jov => rw [State.jumped_eq]; rfl
  | pop r =>
    obtain ⟨hr, hsp⟩ : q ≠ r ∧ q ≠ spReg := by simpa [writtenRegs] using hq
    exact (State.setReg_reg_other _ hr _).trans (State.setReg_reg_other _ hsp _)
  | _ => exact State.setReg_reg_other _ (List.ne_of_not_mem_cons hq) _

/-- R51: only ST, PUSH, CALL and an IN write memory, at the listed addresses. -/
theorem Completes.memKeptOutside (h : Completes s i t) (hm : s.mem.wf = true) :
    MemKeptOutside (mayStoreAt i s) s t := by
  intro a ha
  have below_sp (h0 : s.sp ≠ 0) (ha : ¬ a + 1 = uns s.sp) : a ≠ uns s.sp - 1 := by
    have hpos : uns s.sp ≠ 0 := fun h => h0 (BitVec.eq_of_toNat_eq h)
    omega
  cases h with
  | jmi | jnz | jze | jump | jpl | jov => rw [State.jumped_eq]
  | st r adr x ea hea => exact Memory.read_write_other hm (fun h => ha ⟨ea, hea, h⟩) _
  | push _ _ _ _ h0 | call _ _ _ _ _ h0 => exact Memory.read_write_other hm (below_sp h0 ha) _
  | svcIn adr x hea hb l =>
    obtain ⟨hbuffer, hlength⟩ := not_or.mp fun h => ha ⟨hea, h⟩
    exact (read_inWrites hm hb l a).trans ((if_neg hlength).trans (if_neg hbuffer))
  | _ => rfl

/-! ### The statements -/

/-- Settles O27: a completed instruction writes its listed registers only, and a trap entry writes none. -/
theorem onlyListedRegistersChange : Obligations.OnlyListedRegistersChange := by
  intro i s t hexec
  obtain hc | ⟨e, rfl, -⟩ := exec_next hexec
  · exact hc.regsKeptExcept
  · exact fun q _ => s.trap_reg e q

/-- Settles O28: a completed instruction writes its listed words only, and a trap entry writes none. -/
theorem onlyListedWordsOfMemoryChange : Obligations.OnlyListedWordsOfMemoryChange := by
  intro i s t hm hexec
  obtain hc | ⟨e, rfl, -⟩ := exec_next hexec
  · exact hc.memKeptOutside hm
  · exact fun a _ => congrArg (Memory.read · a) (s.trap_mem e)

end Sys2Proof.Machine
end

section
/-! PROOFS. Addresses (20_memory.md R52; 30_encoding.md R78): the tested sum, the bounds of an access, and the error
that stops every instruction with an address operand; then the statements of that family. -/

namespace Sys2Proof.Machine

variable {s : State} {i : Instr} {adr : Word} {x : Option Reg} {e : RunError}

/-! ### The effective address (R78) -/

/-- Two 16-bit values are summed. -/
theorem eaSum_le (s : State) (adr : Word) (x : Option Reg) : eaSum s adr x ≤ 131070 := by
  have hadr : uns adr < 65536 := adr.isLt
  have hindex : indexValue s x < 65536 := by
    cases x with
    | none => exact Nat.zero_lt_succ _
    | some r => exact (s.reg r).isLt
  rw [eaSum]
  omega

theorem uns_ofNat {n : Nat} (h : n < 65536) : uns (BitVec.ofNat 16 n) = n := Nat.mod_eq_of_lt h

theorem effectiveAddress_fault (hge : memWords ≤ eaSum s adr x) (hp : s.params.eaPolicy = .fault) :
    effectiveAddress s adr x = .error (.memoryAccess (eaSum s adr x)) := by
  rw [effectiveAddress, if_neg (Nat.not_lt.mpr hge), hp]

theorem effectiveAddress_wrap (hge : memWords ≤ eaSum s adr x) (hp : s.params.eaPolicy = .wrap) :
    effectiveAddress s adr x = .ok (BitVec.ofNat 16 (eaSum s adr x - memWords)) := by
  rw [effectiveAddress, if_neg (Nat.not_lt.mpr hge), hp]

/-! ### An effective address that is none -/

theorem finish_of_address_error (he : effectiveAddress s adr x = .error e) (f : Word → Except RunError State) :
    finish s (effectiveAddress s adr x >>= f) = .next (s.trap e) := by
  rw [he, error_bind, finish_error]

theorem finish_of_operand_error (he : effectiveAddress s adr x = .error e) (f : Word → Except RunError State) :
    finish s (memOperand s adr x >>= f) = .next (s.trap e) := by
  rw [memOperand_eq, he, error_bind, error_bind, finish_error]

theorem execSvc_of_address_error (he : effectiveAddress s adr x = .error e) :
    execSvc adr x s = .next (s.trap e) := by
  rw [execSvc, he]

/-- R78: the effective address comes first in every instruction of the formats RA and A: those that use the word there,
those that use the address itself, and SVC. -/
theorem exec_of_address_error (hi : i.addressOperand = some (adr, x)) (he : effectiveAddress s adr x = .error e) :
    exec i s = .next (s.trap e) := by
  cases i with
  | nop | ldReg | addaReg | subaReg | addlReg | sublReg | andReg | orReg | xorReg | cpaReg | cplReg | pop | ret =>
    cases hi
  | ldMem | addaMem | subaMem | addlMem | sublMem | andMem | orMem | xorMem | cpaMem | cplMem =>
    cases hi; exact finish_of_operand_error he _
  | st | lad | sla | sra | sll | srl | jmi | jnz | jze | jump | jpl | jov | push | call =>
    cases hi; exact finish_of_address_error he _
  | svc => cases hi; exact execSvc_of_address_error he

/-! ### The statements -/

/-- Settles O35: the sum is `eaSum`, and the cases are those of the effective-address test. -/
theorem effectiveAddressIsTheTestedSum : Obligations.EffectiveAddressIsTheTestedSum := by
  intro s adr x sum hx
  obtain rfl : sum = eaSum s adr x := by
    obtain ⟨rfl, rfl⟩ | ⟨r, rfl, rfl⟩ := hx <;> rfl
  have hle := eaSum_le s adr x
  exact ⟨hle, fun hlt => ⟨_, effectiveAddress_inside hlt, uns_ofNat hlt⟩, effectiveAddress_fault,
    fun hge hp => ⟨_, effectiveAddress_wrap hge hp, uns_ofNat (by omega : _ - 65536 < 65536)⟩⟩

/-- Settles O36: under `fault` such a sum is the error that stops the instruction. -/
theorem effectiveAddressErrorStopsEveryAddressForm : Obligations.EffectiveAddressErrorStopsEveryAddressForm :=
  fun _ _ _ _ hi hge hp => trapsWith_of_eq (exec_of_address_error hi (effectiveAddress_fault hge hp))

/-- Settles O37: each of the two accesses tests its address against the number of words. -/
theorem everyAccessIsBoundsChecked : Obligations.EveryAccessIsBoundsChecked :=
  fun _ _ _ => ⟨fun hge => ⟨if_pos hge, if_pos hge⟩,
    fun hlt => ⟨if_neg (Nat.not_le.mpr hlt), if_neg (Nat.not_le.mpr hlt)⟩⟩

end Sys2Proof.Machine
end

section
/-! PROOFS. The stack, CALL and RET (46_call_stack.md R190 to R197): what each completes in and which error it raises
otherwise, and what a push and a pop change; then the statements of that family. -/

namespace Sys2Proof.Machine

variable {s t : State} {adr : Word} {x : Option Reg} {ea : Word}

/-! ### The stack pointer (R22, R190) -/

theorem sp_ne_zero_iff : s.sp ≠ 0 ↔ uns s.sp ≠ 0 :=
  not_congr ⟨fun h => congrArg uns h, fun h => BitVec.eq_of_toNat_eq h⟩

theorem uns_sp_sub_one (h0 : s.sp ≠ 0) : uns (s.sp - 1) = uns s.sp - 1 := by
  have hpos : uns s.sp ≠ 0 := sp_ne_zero_iff.mp h0
  have hle : (1 : Word) ≤ s.sp := Nat.pos_of_ne_zero hpos
  exact BitVec.toNat_sub_of_le hle

/-- Below a ceiling, which is a 16-bit value, GR7 has room to grow by one. -/
theorem uns_sp_add_one {c : Word} (h : uns s.sp < uns c) : uns (s.sp + 1) = uns s.sp + 1 := by
  have hlt : uns s.sp + 1 < 65536 := Nat.lt_of_le_of_lt h c.isLt
  rw [uns, BitVec.toNat_add]
  exact Nat.mod_eq_of_lt hlt

/-! ### PUSH (R191, R193) -/

theorem push_of_sp_ne_zero (h0 : s.sp ≠ 0) (v : Word) : push s v = .ok (s.pushed v) := by
  obtain ⟨h, -⟩ | ⟨-, -, hp⟩ := push_cases s v
  · exact absurd h h0
  · exact hp

theorem push_of_sp_eq_zero (h0 : s.sp = 0) (v : Word) : push s v = .error (.stackFault 0 .overflow) := by
  rw [push, if_pos h0, h0]

theorem execPush_eq (hea : effectiveAddress s adr x = .ok ea) (h0 : s.sp ≠ 0) :
    execPush adr x s = .next ((s.pushed ea).advance 2) := by
  rw [execPush, hea, ok_bind, push_of_sp_ne_zero h0, ok_bind, finish_ok]

theorem execPush_overflow (hea : effectiveAddress s adr x = .ok ea) (h0 : s.sp = 0) :
    execPush adr x s = .next (s.trap (.stackFault 0 .overflow)) := by
  rw [execPush, hea, ok_bind, push_of_sp_eq_zero h0, error_bind, finish_error]

/-- R191: a push stores below the old stack pointer and nowhere else. -/
theorem memKeptOutside_pushed (hm : s.mem.wf = true) (v : Word) :
    MemKeptOutside (fun a => a = uns s.sp - 1) s (s.pushed v) :=
  fun _ ha => Memory.read_write_other hm ha v

/-! ### CALL (R195) -/

theorem returnAddress_eq (hpr : s.pr + 2 < memWords) : returnAddress s = .ok (BitVec.ofNat 16 (s.pr + 2)) := by
  rw [returnAddress, if_neg (Nat.not_le.mpr hpr)]

theorem returnAddress_error (hpr : memWords ≤ s.pr + 2) :
    returnAddress s = .error (.memoryAccess (s.pr + 2)) := if_pos hpr

theorem execCall_eq (hea : effectiveAddress s adr x = .ok ea) (hpr : s.pr + 2 < memWords) (h0 : s.sp ≠ 0) :
    execCall adr x s = .next ((s.pushed (BitVec.ofNat 16 (s.pr + 2))).goto (uns ea)) := by
  rw [execCall, hea, ok_bind, returnAddress_eq hpr, ok_bind, push_of_sp_ne_zero h0, ok_bind, finish_ok]

theorem execCall_overflow (hea : effectiveAddress s adr x = .ok ea) (hpr : s.pr + 2 < memWords) (h0 : s.sp = 0) :
    execCall adr x s = .next (s.trap (.stackFault 0 .overflow)) := by
  rw [execCall, hea, ok_bind, returnAddress_eq hpr, ok_bind, push_of_sp_eq_zero h0, error_bind, finish_error]

/-- R195: the return address is tested before the push. -/
theorem execCall_no_return_address (hea : effectiveAddress s adr x = .ok ea) (hpr : memWords ≤ s.pr + 2) :
    execCall adr x s = .next (s.trap (.memoryAccess (s.pr + 2))) := by
  rw [execCall, hea, ok_bind, returnAddress_error hpr, error_bind, finish_error]

/-! ### POP and RET (R192, R194, R196) -/

theorem pop_below_ceiling (h : uns s.sp < uns s.params.spInit) :
    pop s = .ok (s.mem.read (uns s.sp), s.popped) := by
  obtain ⟨hge, -⟩ | ⟨-, hp⟩ := pop_cases s
  · exact absurd h (Nat.not_lt.mpr hge)
  · exact hp

theorem pop_at_ceiling (h : uns s.params.spInit ≤ uns s.sp) : pop s = .error (.stackFault s.sp .underflow) := by
  rw [pop, if_pos h]

theorem execPop_eq (h : uns s.sp < uns s.params.spInit) (r : Reg) :
    execPop r s = .next ((s.popped.setReg r (s.mem.read (uns s.sp))).advance 1) := by
  rw [execPop, pop_below_ceiling h, ok_bind, finish_ok]

theorem execPop_underflow (h : uns s.params.spInit ≤ uns s.sp) (r : Reg) :
    execPop r s = .next (s.trap (.stackFault s.sp .underflow)) := by
  rw [execPop, pop_at_ceiling h, error_bind, finish_error]

theorem execRet_eq (h : uns s.sp < uns s.params.spInit) :
    execRet s = .next (s.popped.goto (uns (s.mem.read (uns s.sp)))) := by
  rw [execRet, pop_below_ceiling h, ok_bind, finish_ok]

theorem execRet_underflow (h : uns s.params.spInit ≤ uns s.sp) :
    execRet s = .next (s.trap (.stackFault s.sp .underflow)) := by
  rw [execRet, pop_at_ceiling h, error_bind, finish_error]

/-- The popped word wins over GR7's own move (R194); in another register it leaves that move standing. -/
theorem sp_popped_setReg {r : Reg} (hr : r ≠ spReg) (v : Word) : (s.popped.setReg r v).sp = s.sp + 1 :=
  (State.setReg_reg_other _ hr.symm v).trans (State.setReg_sp_same s _)

/-! ### The statements -/

/-- Settles O47: the state that PUSH completes in, with GR7 at 1 or above. -/
theorem pushStoresTheEffectiveAddress : Obligations.PushStoresTheEffectiveAddress := by
  intro s adr x ea hm hea hsp
  have h0 := sp_ne_zero_iff.mpr hsp
  refine ⟨_, execPush_eq hea h0, ?_, read_pushed hm ea, memKeptOutside_pushed hm ea,
    (Completes.push adr x ea hea h0).regsKeptExcept, rfl, rfl, ⟨rfl, rfl, rfl, rfl, rfl, rfl⟩⟩
  exact (congrArg uns (State.setReg_sp_same _ _)).trans (uns_sp_sub_one h0)

/-- Settles O48: the state that POP completes in, with GR7 below the ceiling. -/
theorem popLoadsTheTopOfTheStack : Obligations.PopLoadsTheTopOfTheStack := by
  intro s r hlt
  refine ⟨_, execPop_eq hlt r, State.setReg_reg_same _ r _, fun hr => ?_,
    (Completes.pop r hlt).regsKeptExcept, fun _ => rfl, rfl, rfl, ⟨rfl, rfl, rfl, rfl, rfl, rfl⟩⟩
  exact (congrArg uns (sp_popped_setReg hr _)).trans (uns_sp_add_one hlt)

/-- Settles O49: the state that CALL completes in, where it has a return address and GR7 is 1 or above. -/
theorem callPushesTheReturnAddress : Obligations.CallPushesTheReturnAddress := by
  intro s adr x ea hm hea hpr hsp
  have h0 := sp_ne_zero_iff.mpr hsp
  refine ⟨_, execCall_eq hea hpr h0, rfl, ?_, ?_, memKeptOutside_pushed hm _,
    (Completes.call adr x ea hea hpr h0).regsKeptExcept, rfl, ⟨rfl, rfl, rfl, rfl, rfl, rfl⟩⟩
  · exact (congrArg uns (State.setReg_sp_same _ _)).trans (uns_sp_sub_one h0)
  · exact (congrArg uns (read_pushed hm _)).trans (uns_ofNat hpr)

/-- Settles O50: the state that RET completes in, with GR7 below the ceiling. -/
theorem retPopsThePr : Obligations.RetPopsThePr := by
  intro s hlt
  refine ⟨_, execRet_eq hlt, rfl, ?_, (Completes.ret hlt).regsKeptExcept, fun _ => rfl, rfl,
    ⟨rfl, rfl, rfl, rfl, rfl, rfl⟩⟩
  exact (congrArg uns (State.setReg_sp_same s _)).trans (uns_sp_add_one hlt)

/-- Settles O51: after the effective address CALL tests its return address, and then both push. -/
theorem pushAndCallFaultInTheirOrder : Obligations.PushAndCallFaultInTheirOrder := by
  intro s adr x ea hea
  have hsp (h : uns s.sp = 0) : s.sp = 0 := BitVec.eq_of_toNat_eq h
  refine ⟨fun h => ?_, fun h hpr => ?_, fun hpr => ?_⟩
  · exact trapsWith_of_eq (execPush_overflow hea (hsp h))
  · exact trapsWith_of_eq (execCall_overflow hea hpr (hsp h))
  · have hback : s.pr + 2 = 65536 := by omega
    have hcall := execCall_no_return_address hea (Nat.le_of_eq hback.symm)
    rw [hback] at hcall
    exact trapsWith_of_eq hcall

/-- Settles O52: both instructions begin with the pop. -/
theorem popAndRetFaultAtTheCeiling : Obligations.PopAndRetFaultAtTheCeiling :=
  fun _ r hge => ⟨trapsWith_of_eq (execPop_underflow hge r), trapsWith_of_eq (execRet_underflow hge)⟩

/-- Settles O53: RET pops the word that CALL pushed, from the place below the caller's GR7, which was at the ceiling or
below it; GR7 moves back up. -/
theorem callThenRetReturns : Obligations.CallThenRetReturns := by
  intro s t u adr x ea hm hea hpr hsp hceiling hcall husp hword hparams
  have h0 := sp_ne_zero_iff.mpr hsp
  obtain rfl : (s.pushed (BitVec.ofNat 16 (s.pr + 2))).goto (uns ea) = t :=
    Host.Outcome.next.inj ((execCall_eq hea hpr h0).symm.trans hcall)
  have hu : u.sp = s.sp - 1 := husp.trans (State.setReg_sp_same _ _)
  have huns : uns u.sp = uns s.sp - 1 := hu ▸ uns_sp_sub_one h0
  have hread : u.mem.read (uns u.sp) = BitVec.ofNat 16 (s.pr + 2) := by
    rw [← husp, huns] at hword
    exact huns ▸ hword.trans (read_pushed hm _)
  have hlt : uns u.sp < uns u.params.spInit := by
    have hinit : u.params.spInit = s.params.spInit := congrArg Params.spInit hparams
    rw [huns, hinit]
    omega
  refine ⟨_, execRet_eq hlt, ?_, ?_, (Completes.ret hlt).regsKeptExcept, fun _ => rfl⟩
  · exact (congrArg uns hread).trans (uns_ofNat hpr)
  · have hback : u.sp + 1 = s.sp := by rw [hu, BitVec.sub_add_cancel]
    exact (State.setReg_sp_same u _).trans hback

end Sys2Proof.Machine
end

section
/-! PROOFS. No-operation and the supervisor call (48_system_io.md R230 to R237): which service an effective address
names, what each service completes in and which error it raises otherwise; then the statements of that family. -/

namespace Sys2Proof.Machine

variable {s : State} {adr : Word} {x : Option Reg}

/-! ### The service number (R231) -/

theorem execSvc_zero (h : effectiveAddress s adr x = .ok 0) : execSvc adr x s = svcHalt s := by
  rw [execSvc, h]
  rfl

theorem execSvc_one (h : effectiveAddress s adr x = .ok 1) : execSvc adr x s = svcIn s := by
  rw [execSvc, h]
  rfl

theorem execSvc_two (h : effectiveAddress s adr x = .ok 2) : execSvc adr x s = svcOut s := by
  rw [execSvc, h]
  rfl

/-- R235: every number above 2 is an unknown service. -/
theorem execSvc_unknown {n : Word} (h : effectiveAddress s adr x = .ok n) (h0 : n ≠ 0) (h1 : n ≠ 1) (h2 : n ≠ 2) :
    execSvc adr x s = svcUnknown x s := by
  rw [execSvc, h]
  dsimp only
  split
  case h_1 hn => exact absurd (BitVec.eq_of_toNat_eq hn) h0
  case h_2 hn => exact absurd (BitVec.eq_of_toNat_eq hn) h1
  case h_3 hn => exact absurd (BitVec.eq_of_toNat_eq hn) h2
  case h_4 => rfl

/-! ### IN (R233) -/

theorem svcIn_past_top (hb : memWords < uns (s.reg 1) + s.params.inMaxLen) :
    svcIn s = .next (s.trap (.memoryAccess memWords)) := if_pos hb

theorem svcIn_line {l : Line} {rest : List Line} (hb : uns (s.reg 1) + s.params.inMaxLen ≤ memWords)
    (hi : s.dev.input = l :: rest) :
    svcIn s = .next (((s.setMem (inWrites s l)).setDev { s.dev with input := rest }).draw.advance 2) := by
  rw [svcIn, if_neg (Nat.not_lt.mpr hb), readLine, hi]

theorem svcIn_endOfInput (hb : uns (s.reg 1) + s.params.inMaxLen ≤ memWords) (hi : s.dev.input = [])
    (ha : s.dev.atEnd = .endOfInput) : svcIn s = .next (s.trap .endOfInput) := by
  rw [svcIn, if_neg (Nat.not_lt.mpr hb), readLine, hi, ha]

theorem svcIn_noAnswer (hb : uns (s.reg 1) + s.params.inMaxLen ≤ memWords) (hi : s.dev.input = [])
    (ha : s.dev.atEnd = .noAnswer) : svcIn s = .fault .waitingForDevice := by
  rw [svcIn, if_neg (Nat.not_lt.mpr hb), readLine, hi, ha]

theorem uns_read_inWrites_length (hm : s.mem.wf = true) (hb : uns (s.reg 1) + s.params.inMaxLen ≤ memWords) (l : Line)
    (hlen : min l.length s.params.inMaxLen < 65536) :
    uns ((inWrites s l).read (uns (s.reg 2))) = min l.length s.params.inMaxLen := by
  rw [read_inWrites hm hb, if_pos rfl, lengthWord_eq (uns_ofNat hlen), uns_ofNat hlen]

/-! ### OUT (R234, R237) -/

/-- The words handed to the device are the words of memory from the buffer's address on. -/
theorem Memory.readWords_eq_map (m : Memory) (a n : Nat) :
    m.readWords a n = (List.range n).map fun k => m.read (a + k) := by
  induction n generalizing a with
  | zero => rfl
  | succ n ih =>
    have hshift (k : Nat) : a + 1 + k = a + (k + 1) := by omega
    rw [Memory.readWords, ih, List.range_succ_eq_map, List.map_cons, List.map_map]
    simp only [hshift]
    rfl

theorem svcOut_line (hb : uns (s.reg 1) + uns (s.mem.read (uns (s.reg 2))) ≤ memWords) :
    svcOut s = .next ((s.setDev (writeLine s.dev
      (s.mem.readWords (uns (s.reg 1)) (uns (s.mem.read (uns (s.reg 2))))))).advance 2) := by
  rw [svcOut, memRead_word, ok_bind, if_neg (Nat.not_lt.mpr hb), finish_ok]

theorem svcOut_past_top (hb : memWords < uns (s.reg 1) + uns (s.mem.read (uns (s.reg 2)))) :
    svcOut s = .next (s.trap (.memoryAccess memWords)) := by
  rw [svcOut, memRead_word, ok_bind, if_pos hb, finish_error]

/-! ### The statements -/

/-- Settles O54: NOP writes PR alone. -/
theorem nopMovesPrOnly : Obligations.NopMovesPrOnly :=
  fun _ => ⟨_, rfl, rfl, rfl, fun _ _ => rfl, fun _ => rfl, ⟨rfl, rfl, rfl, rfl, rfl, rfl⟩⟩

/-- Settles O55: service 0 writes PR and the run state. -/
theorem svcZeroHaltsNormally : Obligations.SvcZeroHaltsNormally :=
  fun _ _ _ hea => ⟨_, execSvc_zero hea, rfl, rfl, rfl, fun _ _ => rfl, rfl, fun _ => rfl, rfl, rfl, rfl, rfl⟩

/-- Settles O56: the state that an IN with a line completes in, and its memory word by word. -/
theorem svcOneReadsALine : Obligations.SvcOneReadsALine := by
  rintro s adr x line rest _ _ _ hm hea rfl rfl rfl hb hi
  exact ⟨_, (execSvc_one hea).trans (svcIn_line hb hi), rfl, rfl, rfl, fun _ _ => rfl, rfl, rfl, rfl, rfl,
    uns_read_inWrites_length hm hb line, fun _ hk hne => read_inWrites_buffer hm hb line hk hne,
    fun a ha => (Completes.svcIn adr x hea hb line rest hi).memKeptOutside hm a fun h => ha h.2⟩

/-- Settles O57: the bound is tested first, then the device is asked. -/
theorem svcOneStopsWithoutALine : Obligations.SvcOneStopsWithoutALine := by
  intro s adr x hea
  have hin : exec (.svc adr x) s = svcIn s := execSvc_one hea
  exact ⟨fun hb => trapsWith_of_eq (hin.trans (svcIn_past_top hb)),
    fun hb hi => ⟨fun ha => trapsWith_of_eq (hin.trans (svcIn_endOfInput hb hi ha)),
      fun ha => hin.trans (svcIn_noAnswer hb hi ha)⟩⟩

/-- Settles O58: the state that an OUT completes in, with the line's words read one by one, or its bound. -/
theorem svcTwoWritesALine : Obligations.SvcTwoWritesALine := by
  rintro s adr x _ _ hea rfl rfl
  have hout : exec (.svc adr x) s = svcOut s := execSvc_two hea
  refine ⟨fun hb => ?_, fun hb => trapsWith_of_eq (hout.trans (svcOut_past_top hb))⟩
  refine ⟨_, hout.trans (svcOut_line hb), rfl, rfl, rfl, fun _ _ => rfl, rfl, fun _ => rfl, rfl, rfl, rfl, ?_⟩
  rw [← Memory.readWords_eq_map]
  rfl

/-- Settles O59: the rebuilt word is the SVC's first word. -/
theorem unknownServiceRaisesIllegalInstruction : Obligations.UnknownServiceRaisesIllegalInstruction :=
  fun _ _ _ _ hea h0 h1 h2 => trapsWith_of_eq (execSvc_unknown hea h0 h1 h2)

end Sys2Proof.Machine
end

section
/-! PROOFS. What no instruction reads (10_state.md R33; 60_exceptions.md R269): the step count and the run option
`trace`. Two states that differ in these alone do the same, shape by shape; then the two statements. -/

namespace Sys2Proof.Machine

/-- The same state with `trace` set to `b` and the step count set to `n`. -/
def State.relabel (s : State) (b : Bool) (n : Nat) : State := (s.withTrace b).withSteps n

/-- A state that followed `s`, relabelled as it follows `s.relabel b n`: as many instructions are counted. -/
def State.relabelAfter (s : State) (b : Bool) (n : Nat) (t : State) : State := t.relabel b (n + (t.steps - s.steps))

/-- `o` is what came of `s`, and `o'` is the same of `s.relabel b n`. -/
abbrev Relabelled (s : State) (b : Bool) (n : Nat) (o o' : Result) : Prop := o' = mapNext (s.relabelAfter b n) o

section

variable {s t u : State} {b : Bool} {n : Nat} {adr : Word} {x : Option Reg}

/-! ### The ways in which an instruction ends (R108, R263) -/

theorem relabel_trap (e : RunError) :
    Relabelled s b n (.next (s.trap e)) (.next ((s.relabel b n).trap e)) := by
  refine congrArg Host.Outcome.next ?_
  rw [State.relabelAfter, State.trap_steps, Nat.sub_self]
  rfl

theorem relabel_advance (len : Nat) (ht : t.steps = s.steps := by rfl) (hu : u = t.relabel b n := by rfl) :
    Relabelled s b n (.next (t.advance len)) (.next (u.advance len)) := by
  refine congrArg Host.Outcome.next ?_
  rw [State.relabelAfter, State.advance_steps, ht, Nat.add_sub_cancel_left, hu]
  rfl

theorem relabel_goto (target : Nat) (ht : t.steps = s.steps := by rfl) (hu : u = t.relabel b n := by rfl) :
    Relabelled s b n (.next (t.goto target)) (.next (u.goto target)) := by
  refine congrArg Host.Outcome.next ?_
  rw [State.relabelAfter, State.goto_steps, ht, Nat.add_sub_cancel_left, hu]
  rfl

theorem relabel_jumped (taken : Bool) (target : Nat) :
    Relabelled s b n (.next (s.jumped taken target)) (.next ((s.relabel b n).jumped taken target)) := by
  cases taken with
  | true => exact relabel_goto target
  | false => exact relabel_advance 2

/-! ### The shapes of an instruction: neither the effective address nor memory depends on the labels -/

theorem relabel_address {f g : Word → Except RunError State}
    (h : ∀ ea, Relabelled s b n (finish s (f ea)) (finish (s.relabel b n) (g ea))) :
    Relabelled s b n (finish s (effectiveAddress s adr x >>= f))
      (finish (s.relabel b n) (effectiveAddress (s.relabel b n) adr x >>= g)) := by
  have hsame : effectiveAddress (s.relabel b n) adr x = effectiveAddress s adr x := rfl
  rw [hsame]
  cases effectiveAddress s adr x with
  | error e => exact relabel_trap e
  | ok ea => exact h ea

theorem relabel_operand {f g : Word → State} (h : ∀ v, Relabelled s b n (.next (f v)) (.next (g v))) :
    Relabelled s b n (finish s (memOperand s adr x >>= fun v => .ok (f v)))
      (finish (s.relabel b n) (memOperand (s.relabel b n) adr x >>= fun v => .ok (g v))) := by
  have hsame : memOperand (s.relabel b n) adr x = memOperand s adr x := rfl
  rw [hsame]
  cases memOperand s adr x with
  | error e => exact relabel_trap e
  | ok v => exact h v

theorem relabel_push {v : Word} {f g : State → State}
    (h : Relabelled s b n (.next (f (s.pushed v))) (.next (g ((s.relabel b n).pushed v)))) :
    Relabelled s b n (finish s (push s v >>= fun t => .ok (f t)))
      (finish (s.relabel b n) (push (s.relabel b n) v >>= fun t => .ok (g t))) := by
  by_cases h0 : s.sp = 0
  · rw [push_of_sp_eq_zero h0, push_of_sp_eq_zero (s := s.relabel b n) h0]
    exact relabel_trap _
  · rw [push_of_sp_ne_zero h0, push_of_sp_ne_zero (s := s.relabel b n) h0]
    exact h

theorem relabel_pop {f g : Word × State → State}
    (h : ∀ v, Relabelled s b n (.next (f (v, s.popped))) (.next (g (v, (s.relabel b n).popped)))) :
    Relabelled s b n (finish s (pop s >>= fun p => .ok (f p)))
      (finish (s.relabel b n) (pop (s.relabel b n) >>= fun p => .ok (g p))) := by
  by_cases hlt : uns s.sp < uns s.params.spInit
  · rw [pop_below_ceiling hlt, pop_below_ceiling (s := s.relabel b n) hlt]
    exact h _
  · have hge := Nat.not_lt.mp hlt
    rw [pop_at_ceiling hge, pop_at_ceiling (s := s.relabel b n) hge]
    exact relabel_trap _

/-! ### The services (R232 to R235) -/

theorem svcIn_relabel : Relabelled s b n (svcIn s) (svcIn (s.relabel b n)) := by
  by_cases hb : uns (s.reg 1) + s.params.inMaxLen ≤ memWords
  · obtain ⟨l, rest, hi, -⟩ | ⟨hi, ha, -⟩ | ⟨hi, ha, -⟩ := readLine_cases s.dev
    · rw [svcIn_line hb hi, svcIn_line (s := s.relabel b n) hb hi]
      exact relabel_advance 2
    · rw [svcIn_endOfInput hb hi ha, svcIn_endOfInput (s := s.relabel b n) hb hi ha]
      exact relabel_trap _
    · rw [svcIn_noAnswer hb hi ha, svcIn_noAnswer (s := s.relabel b n) hb hi ha]
      rfl
  · have hpast := Nat.not_le.mp hb
    rw [svcIn_past_top hpast, svcIn_past_top (s := s.relabel b n) hpast]
    exact relabel_trap _

theorem svcOut_relabel : Relabelled s b n (svcOut s) (svcOut (s.relabel b n)) := by
  by_cases hb : uns (s.reg 1) + uns (s.mem.read (uns (s.reg 2))) ≤ memWords
  · rw [svcOut_line hb, svcOut_line (s := s.relabel b n) hb]
    exact relabel_advance 2
  · have hpast := Nat.not_le.mp hb
    rw [svcOut_past_top hpast, svcOut_past_top (s := s.relabel b n) hpast]
    exact relabel_trap _

theorem svcHalt_relabel : Relabelled s b n (svcHalt s) (svcHalt (s.relabel b n)) :=
  congrArg (mapNext (State.setRun · .haltedNormal)) (relabel_advance 2)

theorem execSvc_relabel (adr : Word) (x : Option Reg) :
    Relabelled s b n (execSvc adr x s) (execSvc adr x (s.relabel b n)) := by
  have hsame : effectiveAddress (s.relabel b n) adr x = effectiveAddress s adr x := rfl
  rw [execSvc, execSvc, hsame]
  cases effectiveAddress s adr x with
  | error e => exact relabel_trap e
  | ok service =>
    dsimp only
    split
    · exact svcHalt_relabel
    · exact svcIn_relabel
    · exact svcOut_relabel
    · exact relabel_trap _

/-! ### Every instruction -/

/-- An instruction does the same from the relabelled state. The cases are grouped by the shape of the instruction. -/
theorem exec_relabel (i : Instr) : Relabelled s b n (exec i s) (exec i (s.relabel b n)) := by
  cases i with
  | nop | ldReg | addaReg | subaReg | addlReg | sublReg | andReg | orReg | xorReg | cpaReg | cplReg =>
    exact relabel_advance 1
  | ldMem | addaMem | subaMem | addlMem | sublMem | andMem | orMem | xorMem | cpaMem | cplMem =>
    exact relabel_operand fun _ => relabel_advance 2
  | lad | sla | sra | sll | srl =>
    exact relabel_address fun _ => relabel_advance 2
  | st =>
    exact relabel_address fun _ => by
      rw [memWrite_word, memWrite_word]
      exact relabel_advance 2
  | jmi | jnz | jze | jump | jpl | jov =>
    exact relabel_address fun _ => relabel_jumped _ _
  | push => exact relabel_address fun _ => relabel_push (relabel_advance 2)
  | call =>
    exact relabel_address fun ea => by
      by_cases hpr : s.pr + 2 < memWords
      · rw [returnAddress_eq hpr, returnAddress_eq (s := s.relabel b n) hpr]
        exact relabel_push (relabel_goto _)
      · have hpast := Nat.not_lt.mp hpr
        rw [returnAddress_error hpast, returnAddress_error (s := s.relabel b n) hpast]
        exact relabel_trap _
  | pop => exact relabel_pop fun _ => relabel_advance 1
  | ret => exact relabel_pop fun _ => relabel_goto _
  | svc adr x => exact execSvc_relabel adr x

end

/-! ### One of the two labels changed -/

theorem mapNext_congr {f g : State → State} {o : Result} (h : ∀ t, o = .next t → f t = g t) :
    mapNext f o = mapNext g o := by
  cases o with
  | next t => exact congrArg Host.Outcome.next (h t rfl)
  | fault | refused => rfl

theorem steps_le_of_exec {i : Instr} {s t : State} (h : exec i s = .next t) : s.steps ≤ t.steps := by
  obtain hc | ⟨e, rfl, -⟩ := exec_next h
  · exact hc.steps_eq ▸ Nat.le_succ _
  · exact le_rfl

/-- The relabelling that sets `trace` and leaves the step count as it is. -/
theorem exec_withTrace (i : Instr) (s : State) (b : Bool) :
    exec i (s.withTrace b) = mapNext (fun t => t.withTrace b) (exec i s) := by
  refine (exec_relabel (b := b) (n := s.steps) i).trans (mapNext_congr fun t ht => ?_)
  rw [State.relabelAfter, Nat.add_sub_cancel' (steps_le_of_exec ht)]
  rfl

/-! ### The statements -/

/-- Settles O19: neither the abort, nor the step limit, nor the fetch reads `trace`, and no instruction does. -/
theorem traceHasNoEffect : Obligations.TraceHasNoEffect := by
  intro s b hrun
  cases habort : abortAsserted s.host with
  | true =>
    rw [step_of_abort hrun habort, step_of_abort (s := s.withTrace b) hrun habort]
    rfl
  | false =>
    cases hlim : limitReached s with
    | some l =>
      rw [step_of_limitReached hrun habort hlim, step_of_limitReached (s := s.withTrace b) hrun habort hlim]
      rfl
    | none =>
      have hreach : ReachesFetch s := ⟨hrun, habort, hlim⟩
      have hfetch : fetch (s.withTrace b) = fetch s := rfl
      rw [step_of_reachesFetch hreach, step_of_reachesFetch (s := s.withTrace b) hreach, hfetch]
      cases fetch s with
      | error e => rfl
      | ok i => exact exec_withTrace i s.afterSampling b

/-- Settles O60: the relabelling that sets the step count and leaves `trace` as it is, which no instruction writes. -/
theorem noInstructionReadsTheStepCount : Obligations.NoInstructionReadsTheStepCount := by
  intro i s n
  refine (exec_relabel (b := s.params.trace) (n := n) i).trans (mapNext_congr fun t ht => ?_)
  obtain ⟨-, hparams, -⟩ := onlySvcReachesTheDevice i s t ht
  rw [State.relabelAfter, ← hparams]
  rfl

end Sys2Proof.Machine
end
